-- ==== Sys2Proof/Word.lean ====
section
/-! DEFINITION. The words of the machine: bytes of the Frame, and the three formats of code words
that select an operation (spec/30_encoding.md R76). -/

namespace Sys2Proof

/-- A frame byte (R11). -/
abbrev Byte := BitVec 8

/-- A code word in one of the three formats of R76 that select an operation. The three are separate
code spaces: the same number means different operations in two of them. -/
inductive CodeWord where
  | hostcmd (c : BitVec 2)
  | phase (c : BitVec 4)
  | drv (w : BitVec 12)
  deriving DecidableEq, Repr

end Sys2Proof
end

