-- ==== Sys2Proof/Syntax.lean ====
section
/-! DEFINITION. The operations of the machine, one constructor for each row of
spec/opcode_table.json, and the operands of the driver calls (spec/30_encoding.md R87). -/

namespace Sys2Proof

/-- A level of the line (spec/00_scope.md section 5). -/
inductive Level where
  | low
  | high
  deriving DecidableEq, Repr, Inhabited

/-- A direction of the line (spec/00_scope.md section 5). -/
inductive Direction where
  | input
  | output
  deriving DecidableEq, Repr, Inhabited

/-- The sixteen operations: two host commands, ten engine operations, four driver calls. -/
inductive Instr where
  /-- `ACQUIRE`, R102. -/
  | acquire
  /-- `ABORT`, R103. -/
  | abort
  /-- `START`, R112. -/
  | start
  /-- `ACKLOW`, R113. -/
  | ackLow
  /-- `ACKHIGH`, R114. -/
  | ackHigh
  /-- `BITLOW`, R132. -/
  | bitLow
  /-- `BITHIGH`, R133. -/
  | bitHigh
  /-- `BITSAMPLE`, R134. -/
  | bitSample
  /-- `END`, R116. -/
  | endWait
  /-- `VALIDATE`, R157. -/
  | validate
  /-- `DECODE`, R170. -/
  | decodeReading
  /-- `RECOVER`, R118. -/
  | recover
  /-- `SetDirection d`, R41. -/
  | setDirection (d : Direction)
  /-- `SetLevel v`, R42. -/
  | setLevel (v : Level)
  /-- `GetLevel`, R43. -/
  | getLevel
  /-- `DelayUs n`, R44. -/
  | delayUs (n : Nat)
  deriving DecidableEq, Repr

end Sys2Proof
end

