-- ==== Sys2Proof/Config.lean ====
section
/-! DEFINITION. The parameters the spec leaves open (spec/00_scope.md R7) and the free values of the
model: opaque constants without a body, of which no proof can see a value. -/

namespace Sys2Proof

/-- An iteration cap of a wait: a natural, or `INF`, "no cap" (R7). -/
inductive Budget where
  | inf
  | finite (n : Nat)
  deriving DecidableEq, Repr

/-- The configuration record `Cfg` (R7). State carries one, and no operation writes it: assumption 3. -/
structure Cfg where
  /-- `ACK_BUDGET`: cap of the AckLow wait and of the AckHigh wait. -/
  ackBudget : Nat
  /-- `BIT_BUDGET`: cap of each per-bit wait. -/
  bitBudget : Budget
  /-- `END_BUDGET`: cap of the end-of-frame wait. -/
  endBudget : Budget
  /-- `MIN_POLL_INTERVAL`: a duty of the host, which no operation reads (D26); assumption 15. -/
  minPollInterval : Nat
  deriving DecidableEq, Repr

/-- Free value: `ACK_BUDGET - 1` of the machine after reset (R7, D2; assumption 3). -/
opaque Config.ackBudgetLessOne : Nat

/-- Free value: `BIT_BUDGET - 1` of the machine after reset, `none` for `INF` (R7, D3; assumption 3). -/
opaque Config.bitBudgetLessOne : Option Nat

/-- Free value: `END_BUDGET - 1` of the machine after reset, `none` for `INF` (R7, D3; assumption 3). -/
opaque Config.endBudgetLessOne : Option Nat

/-- Free value: `MIN_POLL_INTERVAL` of the machine after reset (R7, D26; assumption 15). -/
opaque Config.minPollInterval : Nat

/-- Free value: the n-th level the environment answers once the script held by State is used up
(spec/20_memory.md R48, U8; assumption 1). -/
opaque Config.lineAnswer : Nat → Level

/-- A budget from its predecessor, so that it is at least 1, as R7 constrains it. -/
def Config.budgetOf : Option Nat → Budget
  | none => .inf
  | some n => .finite (n + 1)

/-- The configuration after reset: nothing is known of it but R7's constraint. -/
def Config.cfg : Cfg where
  ackBudget := Config.ackBudgetLessOne + 1
  bitBudget := Config.budgetOf Config.bitBudgetLessOne
  endBudget := Config.budgetOf Config.endBudgetLessOne
  minPollInterval := Config.minPollInterval

end Sys2Proof
end

