-- ==== Sys2Proof/WellFormed.lean ====
section
/-! DEFINITION. Which operations have a code word (spec/30_encoding.md R83). -/

namespace Sys2Proof

/-- The one operand with a bound is the delay: R83 gives its argument the ten bits 0 to 1023. -/
def Instr.wf : Instr → Bool
  | .acquire => true
  | .abort => true
  | .start => true
  | .ackLow => true
  | .ackHigh => true
  | .bitLow => true
  | .bitHigh => true
  | .bitSample => true
  | .endWait => true
  | .validate => true
  | .decodeReading => true
  | .recover => true
  | .setDirection _ => true
  | .setLevel _ => true
  | .getLevel => true
  | .delayUs n => decide (n ≤ 1023)

end Sys2Proof
end

