-- ==== Sys2Proof/Decode.lean ====
section
/-! DEFINITION. From code words to operations, total and rejecting by name, and back
(spec/30_encoding.md R76 to R84). -/

namespace Sys2Proof

/-- Why a code word is no operation. -/
inductive DecodeError where
  /-- HOSTCMD 00: the host presents no command (R82). -/
  | noCommand
  /-- PHASE 0000: phase `IDLE` has no operation (R80, R101). -/
  | noOperation
  /-- HOSTCMD 11 (R84). -/
  | reservedHostCmd
  /-- PHASE 1011 to 1111 (R84). -/
  | reservedPhase
  /-- A DRV word with a non-zero must-be-zero bit (R84). -/
  | reservedDrv
  deriving DecidableEq, Repr

/-- R53, R77: `LOW = 0`, `HIGH = 1`. -/
def levelBit : Level → BitVec 1
  | .low => 0#1
  | .high => 1#1

/-- R77, read back. -/
def levelOfBit (b : BitVec 1) : Level := if b = 1#1 then .high else .low

/-- R77: `INPUT = 0`, `OUTPUT = 1`. -/
def directionBit : Direction → BitVec 1
  | .input => 0#1
  | .output => 1#1

/-- R77, read back. -/
def directionOfBit (b : BitVec 1) : Direction := if b = 1#1 then .output else .input

/-- HOSTCMD codes, R82. -/
def decodeHostCmd (c : BitVec 2) : Except DecodeError Instr :=
  match c.toNat with
  | 0 => .error .noCommand
  | 1 => .ok .acquire
  | 2 => .ok .abort
  | _ => .error .reservedHostCmd

/-- PHASE codes, R80. -/
def decodePhase (c : BitVec 4) : Except DecodeError Instr :=
  match c.toNat with
  | 0 => .error .noOperation
  | 1 => .ok .start
  | 2 => .ok .ackLow
  | 3 => .ok .ackHigh
  | 4 => .ok .bitLow
  | 5 => .ok .bitHigh
  | 6 => .ok .bitSample
  | 7 => .ok .endWait
  | 8 => .ok .validate
  | 9 => .ok .decodeReading
  | 10 => .ok .recover
  | _ => .error .reservedPhase

/-- The field `op[11:10]` of a DRV word (R76). -/
def drvOp (w : BitVec 12) : BitVec 2 := w.extractLsb' 10 2

/-- The field `arg[9:0]` of a DRV word (R76). -/
def drvArg (w : BitVec 12) : BitVec 10 := w.extractLsb' 0 10

/-- `arg[0]`, the operand of `SetDirection` and `SetLevel` (R83). -/
def drvBit (w : BitVec 12) : BitVec 1 := w.extractLsb' 0 1

/-- DRV codes, R83. -/
def decodeDrv (w : BitVec 12) : Except DecodeError Instr :=
  match (drvOp w).toNat with
  | 0 => if (drvArg w).toNat < 2 then .ok (.setDirection (directionOfBit (drvBit w))) else .error .reservedDrv
  | 1 => if (drvArg w).toNat < 2 then .ok (.setLevel (levelOfBit (drvBit w))) else .error .reservedDrv
  | 2 => if (drvArg w).toNat = 0 then .ok .getLevel else .error .reservedDrv
  | _ => .ok (.delayUs (drvArg w).toNat)

/-- The operation a code word selects, or the name of the reason it selects none. -/
def decode : CodeWord → Except DecodeError Instr
  | .hostcmd c => decodeHostCmd c
  | .phase c => decodePhase c
  | .drv w => decodeDrv w

/-- A DRV word from its two fields (R83). -/
def drvWord (op : BitVec 2) (arg : BitVec 10) : BitVec 12 := op ++ arg

/-- The code word of a well-formed operation, from the tables R80, R82, R83. -/
def encode : Instr → CodeWord
  | .acquire => .hostcmd 0b01#2
  | .abort => .hostcmd 0b10#2
  | .start => .phase 0b0001#4
  | .ackLow => .phase 0b0010#4
  | .ackHigh => .phase 0b0011#4
  | .bitLow => .phase 0b0100#4
  | .bitHigh => .phase 0b0101#4
  | .bitSample => .phase 0b0110#4
  | .endWait => .phase 0b0111#4
  | .validate => .phase 0b1000#4
  | .decodeReading => .phase 0b1001#4
  | .recover => .phase 0b1010#4
  | .setDirection d => .drv (drvWord 0b00#2 ((directionBit d).setWidth 10))
  | .setLevel v => .drv (drvWord 0b01#2 ((levelBit v).setWidth 10))
  | .getLevel => .drv (drvWord 0b10#2 0#10)
  | .delayUs n => .drv (drvWord 0b11#2 (BitVec.ofNat 10 n))

/-- The code word that `nbits` bits of the opcode table's numbering spell. The table's rows are 2, 4
or 12 bits wide, and in whole bytes 8 or 16; one byte is read in the format PHASE, since the bits
alone do not say the format (assumption 13). Bits above the format's width must be zero. -/
def tableWord (nbits w : Nat) : Option CodeWord :=
  match nbits with
  | 2 => if w < 4 then some (.hostcmd (BitVec.ofNat 2 w)) else none
  | 4 => if w < 16 then some (.phase (BitVec.ofNat 4 w)) else none
  | 8 => if w < 16 then some (.phase (BitVec.ofNat 4 w)) else none
  | 12 => if w < 4096 then some (.drv (BitVec.ofNat 12 w)) else none
  | 16 => if w < 4096 then some (.drv (BitVec.ofNat 12 w)) else none
  | _ => none

/-- What the decoder reads from a word numbered as spec/opcode_table.json numbers it. -/
def decodeTableWord (nbits w : Nat) : Option Instr :=
  match tableWord nbits w with
  | none => none
  | some c =>
    match decode c with
    | .ok i => some i
    | .error _ => none

end Sys2Proof
end

