-- ==== Sys2Proof/Machine/State.lean ====
section
/-! DEFINITION. The state of the machine, its reasons to stop, and the state after reset
(spec/10_state.md). -/

namespace Sys2Proof.Machine

/-- The values of the phase register `PH` (R15, R80). -/
inductive Phase where
  | idle
  | start
  | ackLow
  | ackHigh
  | bitLow
  | bitHigh
  | bitSample
  | endWait
  | validate
  | decode
  | fail
  deriving DecidableEq, Repr

/-- The one code space of `TAG` and `CAUSE` (R81). -/
inductive Tag where
  | none
  | reading
  | ackTimeout
  | ackTimeout2
  | checksumMismatch
  | bitTimeout
  | endTimeout
  deriving DecidableEq, Repr

/-- The five frame byte registers `B[0]` to `B[4]` (R11). -/
structure Frame where
  /-- humidity_high -/
  b0 : Byte
  /-- humidity_low -/
  b1 : Byte
  /-- temperature_high -/
  b2 : Byte
  /-- temperature_low -/
  b3 : Byte
  /-- checksum -/
  b4 : Byte
  deriving DecidableEq, Repr

/-- A Reading (R8, R23): humidity and temperature magnitude in tenths, the sign apart. -/
structure Reading where
  hum : BitVec 16
  sign : BitVec 1
  mag : BitVec 15
  deriving DecidableEq, Repr

/-- `AcquisitionOutcome` as a sum type, as R23 and R104 ask: only one arm carries a Reading. -/
inductive AcquisitionOutcome where
  | reading (r : Reading)
  | ackTimeout
  | ackTimeout2
  | checksumMismatch
  | bitTimeout
  | endTimeout
  deriving DecidableEq, Repr

/-- An entry of `TRACE` (R30): a driver call with its argument and, for `GetLevel`, the answer. -/
inductive DrvCall where
  | setDirection (d : Direction)
  | setLevel (v : Level)
  | getLevel (answer : Level)
  | delayUs (n : Nat)
  deriving DecidableEq, Repr

/-- How a wait over the next answers ends (R110): the awaited level after so many wrong answers, the budget
used up, or neither by the end of the answers looked at. -/
inductive WaitResult where
  | ok (misses : Nat)
  | timeout
  | undecided
  deriving DecidableEq, Repr

/-- What the outside presents at one step (assumption 4). -/
inductive PortWord where
  /-- The host presents a HOSTCMD word (R82). -/
  | host (c : BitVec 2)
  /-- The platform presents a DRV word to the Signal Driver (R83, R235; assumption 5). -/
  | drv (w : BitVec 12)
  /-- The reset of R230 and R231 (assumption 14). -/
  | reset
  deriving DecidableEq, Repr

/-- The state: every register of R10, the ghosts of R30 and R31, and the model's own four fields. -/
structure State where
  /-- `B[0..4]` (R11). -/
  frame : Frame
  /-- `PH` (R15). -/
  ph : Phase
  /-- `BITCNT` (R17). -/
  bitcnt : Nat
  /-- `SPIN` (R18). -/
  spin : Nat
  /-- `CAUSE` (R19). -/
  cause : Tag
  /-- `TAG` (R22). -/
  tag : Tag
  /-- `HUM` (R23). -/
  hum : BitVec 16
  /-- `TSIGN` (R23, R24). -/
  tsign : BitVec 1
  /-- `TMAG` (R23). -/
  tmag : BitVec 15
  /-- `DIR` (R26). -/
  dir : Direction
  /-- `OUT` (R26). -/
  out : Level
  /-- `TRACE`, oldest first (R30). -/
  trace : List DrvCall
  /-- `T`, the requested microseconds (R31). -/
  tUs : Nat
  /-- `NREAD` (R31). -/
  nread : Nat
  /-- MODEL'S OWN: the configuration the machine was built with (R7; assumption 3). -/
  cfg : Cfg
  /-- MODEL'S OWN: the answers to the next `GetLevel` calls (R48; assumption 1). -/
  script : List Level
  /-- MODEL'S OWN: how many free answers have been drawn (R48; assumption 1). -/
  oracle : Nat
  /-- MODEL'S OWN: what the outside presents, one entry a step (assumption 4). -/
  port : List PortWord
  deriving DecidableEq, Repr

/-- Why a step has no meaning (R197). Each is safe: the model stops, and no value is invented. -/
inductive Fault where
  /-- Raised by `SetLevel` while `DIR = INPUT` (R42, R45). Safe. -/
  | setLevelInInput
  /-- Raised by `GetLevel` while `DIR = OUTPUT` (R43, R45). Safe. -/
  | getLevelInOutput
  /-- Raised by `BITSAMPLE` with `BITCNT` above 39, outside the precondition of R146. Safe. -/
  | frameOverrun
  /-- Raised by a step that meets a reserved code word (R84). Safe. -/
  | reservedCode (e : DecodeError)
  deriving DecidableEq, Repr

/-- Why an operation has no step. -/
inductive Refusal where
  /-- Raised by an arm of `exec` that has no meaning yet. Safe; no arm does. -/
  | notModelled (mnemonic : String)
  /-- Raised by `ACQUIRE` while `PH` is not `IDLE` (R102, U1). Safe. -/
  | acquireWhileBusy
  deriving DecidableEq, Repr

/-- All five frame bytes 0. -/
def Frame.zero : Frame where
  b0 := 0
  b1 := 0
  b2 := 0
  b3 := 0
  b4 := 0

/-- The state after reset (R32, R230). The last four fields are the model's own: assumptions 2, 3, 4. -/
def State.reset : State where
  frame := Frame.zero
  ph := .idle
  bitcnt := 0
  spin := 0
  cause := .none
  tag := .none
  hum := 0
  tsign := 0
  tmag := 0
  dir := .output
  out := .high
  trace := []
  tUs := 0
  nread := 0
  cfg := Config.cfg
  script := []
  oracle := 0
  port := []

end Sys2Proof.Machine
end

