-- ==== Sys2Proof/Machine/Operands.lean ====
section
/-! DEFINITION. Operand forms: the frame bytes and their 40-bit view, the shift of the frame
assembler, the checksum operand, and the assembly of a Reading (spec/30_encoding.md R70 to R74,
spec/43_frame_assembler.md, spec/44_checksum_validator.md, spec/45_decoder.md). -/

namespace Sys2Proof.Machine

/-- `NBITS` (R6). -/
def nbitsFrame : Nat := 40

/-- `B[i]` (R11); there is no byte above `B[4]`. -/
def frameByte (f : Frame) (i : Nat) : Byte :=
  match i with
  | 0 => f.b0
  | 1 => f.b1
  | 2 => f.b2
  | 3 => f.b3
  | 4 => f.b4
  | _ => 0

/-- `B[i] <- v` (R11); there is no byte above `B[4]` to write. -/
def setFrameByte (f : Frame) (i : Nat) (v : Byte) : Frame :=
  match i with
  | 0 => { f with b0 := v }
  | 1 => { f with b1 := v }
  | 2 => { f with b2 := v }
  | 3 => { f with b3 := v }
  | 4 => { f with b4 := v }
  | _ => f

/-- The view `FRAME`, `B[0]` in bits 39:32 (R14). -/
def frameWord (f : Frame) : BitVec 40 := f.b0 ++ (f.b1 ++ (f.b2 ++ (f.b3 ++ f.b4)))

/-- `(b << 1) | bit`, in 8 bits: the old bit 7 is dropped (R146). -/
def shiftByte (b : Byte) (bit : BitVec 1) : Byte := (b <<< 1) ||| bit.setWidth 8

/-- The frame after one bit is shifted into the byte that bit number `k` belongs to (R146, R51). -/
def shiftFrame (f : Frame) (k : Nat) (bit : BitVec 1) : Frame :=
  setFrameByte f (k / 8) (shiftByte (frameByte f (k / 8)) bit)

/-- The frame after a run of bits, the first of which is bit number `k` (R146, R148). -/
def shiftBits (f : Frame) (k : Nat) : List (BitVec 1) → Frame
  | [] => f
  | bit :: rest => shiftBits (shiftFrame f k bit) (k + 1) rest

/-- `Sum`, exact (R155, R156). -/
def payloadSum (b0 b1 b2 b3 : Byte) : Nat := b0.toNat + b1.toNat + b2.toNat + b3.toNat

/-- `Check`: the low 8 bits of the sum (R155, R156). -/
def payloadCheck (b0 b1 b2 b3 : Byte) : Byte := BitVec.ofNat 8 (payloadSum b0 b1 b2 b3)

/-- `Validate` (R155): whether the fifth byte is the check of the first four. -/
def frameValid (f : Frame) : Bool := payloadCheck f.b0 f.b1 f.b2 f.b3 == f.b4

/-- Humidity, `(b0 << 8) | b1` in 16 bits (R72, R165). -/
def humidityOf (b0 b1 : Byte) : BitVec 16 := (b0.setWidth 16 <<< 8) ||| b1.setWidth 16

/-- Sign flag, bit 7 of `b2`: 1 if `b2 & 0x80` is not zero (R73, R165). -/
def signOf (b2 : Byte) : BitVec 1 := if b2 &&& 0x80#8 = 0#8 then 0#1 else 1#1

/-- Magnitude, `((b2 & 0x7F) << 8) | b3` in 15 bits (R73, R165, R167). -/
def magnitudeOf (b2 b3 : Byte) : BitVec 15 := ((b2 &&& 0x7F#8).setWidth 15 <<< 8) ||| b3.setWidth 15

/-- `Decode` (R165): a function of the four bytes and nothing else (R172). -/
def readingOf (b0 b1 b2 b3 : Byte) : Reading where
  hum := humidityOf b0 b1
  sign := signOf b2
  mag := magnitudeOf b2 b3

/-- `TempTenths` (R168): what a host computes from sign and magnitude. -/
def tempTenths (sign : BitVec 1) (mag : BitVec 15) : Int :=
  if sign = 1#1 then -(mag.toNat : Int) else (mag.toNat : Int)

/-- `HumidityPercent` (R171): the exact rational `HUM / 10`. -/
def humidityPercent (hum : BitVec 16) : Rat := (hum.toNat : Rat) / 10

/-- `TemperatureC` (R171): the exact rational `TempTenths / 10`. -/
def temperatureC (sign : BitVec 1) (mag : BitVec 15) : Rat := (tempTenths sign mag : Rat) / 10

end Sys2Proof.Machine
end

