-- ==== Sys2Proof/Machine/Flags.lean ====
section
/-! DEFINITION. The codes of `PH` and `TAG`, the derived flag `BUSY`, the layout of `OUTCOME` and the
result the host reads (spec/10_state.md section 5, spec/30_encoding.md R78, R80, R81). -/

namespace Sys2Proof.Machine

/-- The 4-bit code of a phase (R80). -/
def phaseCode : Phase → BitVec 4
  | .idle => 0
  | .start => 1
  | .ackLow => 2
  | .ackHigh => 3
  | .bitLow => 4
  | .bitHigh => 5
  | .bitSample => 6
  | .endWait => 7
  | .validate => 8
  | .decode => 9
  | .fail => 10

/-- The phase of a 4-bit code; the reserved codes have none (R80, R84). -/
def phaseOfCode (c : BitVec 4) : Option Phase :=
  match c.toNat with
  | 0 => some .idle
  | 1 => some .start
  | 2 => some .ackLow
  | 3 => some .ackHigh
  | 4 => some .bitLow
  | 5 => some .bitHigh
  | 6 => some .bitSample
  | 7 => some .endWait
  | 8 => some .validate
  | 9 => some .decode
  | 10 => some .fail
  | _ => none

/-- The 3-bit code of `TAG` and `CAUSE` (R81). -/
def tagCode : Tag → BitVec 3
  | .none => 0
  | .reading => 1
  | .ackTimeout => 2
  | .ackTimeout2 => 3
  | .checksumMismatch => 4
  | .bitTimeout => 5
  | .endTimeout => 6

/-- The derived flag `BUSY` (R25). -/
def busy (s : State) : Bool := decide (s.ph ≠ .idle)

/-- The host's read of `OUTCOME`: `TAG`, `HUM`, `TSIGN`, `TMAG` from the top down (R78). A read has no
side effect (R105), so it is a function of the state and no operation. -/
def outcomeWord (s : State) : BitVec 35 := tagCode s.tag ++ (s.hum ++ (s.tsign ++ s.tmag))

/-- The value the blocking call returns (R104); `TAG = NONE` is no outcome. -/
def result (s : State) : Option AcquisitionOutcome :=
  match s.tag with
  | .none => none
  | .reading => some (.reading ⟨s.hum, s.tsign, s.tmag⟩)
  | .ackTimeout => some .ackTimeout
  | .ackTimeout2 => some .ackTimeout2
  | .checksumMismatch => some .checksumMismatch
  | .bitTimeout => some .bitTimeout
  | .endTimeout => some .endTimeout

/-- The level the host side drives, if it drives (R26, R27, R41). -/
def drivenLevel (s : State) : Option Level :=
  match s.dir with
  | .output => some s.out
  | .input => none

end Sys2Proof.Machine
end

