-- ==== Sys2Proof/Machine/Ops.lean ====
section
/-! DEFINITION. The shared operations: the four driver calls, the environment's answers, the bounded
poll, failure entry and its report, the return to `IDLE`, and the choice of what a step runs. -/

namespace Sys2Proof.Machine

/-- `START_LOW_US` (R6, R112). -/
def startLowUs : Nat := 1000

/-- `POLL_US` (R6, R110). -/
def pollUs : Nat := 1

/-- `SAMPLE_US` (R6, R134). -/
def sampleUs : Nat := 35

/-- Goes on after a part of an operation that may fault. -/
def andThen {α β : Type} (o : Host.Outcome α Fault Refusal) (k : α → Host.Outcome β Fault Refusal) :
    Host.Outcome β Fault Refusal :=
  match o with
  | .next a => k a
  | .fault f => .fault f
  | .refused r => .refused r

/-! ### The Signal Driver (spec/20_memory.md section 2) -/

/-- Appends a driver call to `TRACE` (R30). -/
def record (c : DrvCall) (s : State) : State := { s with trace := s.trace ++ [c] }

/-- `SetDirection(d)`, always valid (R41). -/
def setDirection (d : Direction) (s : State) : State := record (.setDirection d) { s with dir := d }

/-- `SetLevel(v)`, valid only while `DIR = OUTPUT` (R42, R45). -/
def setLevel (v : Level) (s : State) : Host.Outcome State Fault Refusal :=
  match s.dir with
  | .output => .next (record (.setLevel v) { s with out := v })
  | .input => .fault .setLevelInInput

/-- The level the environment answers next: the head of the script, or a free value (R48). -/
def nextAnswer (s : State) : Level :=
  match s.script with
  | v :: _ => v
  | [] => Config.lineAnswer s.oracle

/-- The answer is used up (R48, R49). -/
def dropAnswer (s : State) : State :=
  match s.script with
  | _ :: rest => { s with script := rest }
  | [] => { s with oracle := s.oracle + 1 }

/-- The state after a read that the environment has answered (R43). -/
def afterRead (s : State) : State :=
  record (.getLevel (nextAnswer s)) { dropAnswer s with nread := s.nread + 1 }

/-- `GetLevel()`, valid only while `DIR = INPUT` (R43, R45): the answer and the state after the call. -/
def getLevel (s : State) : Host.Outcome (Level × State) Fault Refusal :=
  match s.dir with
  | .input => .next (nextAnswer s, afterRead s)
  | .output => .fault .getLevelInOutput

/-- `DelayUs(n)` (R44). -/
def delayUs (n : Nat) (s : State) : State := record (.delayUs n) { s with tUs := s.tUs + n }

/-! ### Return to `IDLE`, failure entry and report -/

/-- Clears the scratch `B[0..4]`, `BITCNT`, `SPIN`, `CAUSE` (R29, R33). -/
def clearScratch (s : State) : State := { s with frame := Frame.zero, bitcnt := 0, spin := 0, cause := .none }

/-- Clears `TAG` and the Reading (R22, R23). -/
def clearOutcome (s : State) : State := { s with tag := .none, hum := 0, tsign := 0, tmag := 0 }

/-- The end of a cycle: the scratch cleared, `PH <- IDLE` (R29). -/
def toIdle (s : State) : State := { clearScratch s with ph := .idle }

/-- Returning to output mode: `SetDirection(OUTPUT)`, then `SetLevel(HIGH)` (R46). -/
def restoreLine (s : State) : Host.Outcome State Fault Refusal := setLevel .high (setDirection .output s)

/-- Failure entry, `fail c`: `CAUSE <- c; PH <- FAIL` (R206; spec/00_scope.md section 5). -/
def failWith (c : Tag) (s : State) : State := { s with cause := c, ph := .fail }

/-- Failure report: the line restored, `TAG <- CAUSE`, back to `IDLE` (R118, R206). There is no return
to the failed sequence (R209). -/
def reportFailure (s : State) : Host.Outcome State Fault Refusal :=
  andThen (restoreLine s) fun s => .next (toIdle { s with tag := s.cause })

/-! ### The bounded poll (spec/41_handshake_sequencer.md R110) -/

/-- The end of a wait, `SPIN <- 0; PH <- next`. -/
def leaveWait (next : Phase) (s : State) : State := { s with spin := 0, ph := next }

/-- A poll that read the wrong level, after its delay: with a finite budget `SPIN` counts it, and the
wait fails when the count reaches the budget; with `INF` nothing changes (R110, R18). -/
def countMiss (budget : Budget) (cause : Tag) (s : State) : State :=
  match budget with
  | .inf => s
  | .finite n =>
    if s.spin + 1 = n then failWith cause { s with spin := s.spin + 1 } else { s with spin := s.spin + 1 }

/-- One iteration of a wait; `reached` is what ends the wait once `target` is read. -/
def pollThen (target : Level) (budget : Budget) (cause : Tag)
    (reached : State → Host.Outcome State Fault Refusal) (s : State) : Host.Outcome State Fault Refusal :=
  andThen (getLevel s) fun r =>
    if r.1 = target then reached r.2 else .next (countMiss budget cause (delayUs pollUs r.2))

/-- `POLL(target, budget, next, cause)` (R110). -/
def poll (target : Level) (budget : Budget) (next : Phase) (cause : Tag) (s : State) :
    Host.Outcome State Fault Refusal :=
  pollThen target budget cause (fun s => .next (leaveWait next s)) s

/-- The next `n` answers of the environment: what is left of the script, then free values (R48). -/
def nextAnswers : Nat → State → List Level
  | 0, _ => []
  | n + 1, s => nextAnswer s :: nextAnswers n (dropAnswer s)

/-- One wrong answer before what comes after it. -/
def afterMiss : WaitResult → WaitResult
  | .ok k => .ok (k + 1)
  | .timeout => .timeout
  | .undecided => .undecided

/-- `WaitLevel(target, budget)` over the answers looked at (R110, R88): a finite budget gives out after so
many wrong ones, `INF` never does. -/
def waitLevel (target : Level) : Budget → List Level → WaitResult
  | .finite 0, _ => .timeout
  | .finite (_ + 1), [] => .undecided
  | .inf, [] => .undecided
  | .finite (n + 1), v :: rest => if v = target then .ok 0 else afterMiss (waitLevel target (.finite n) rest)
  | .inf, v :: rest => if v = target then .ok 0 else afterMiss (waitLevel target .inf rest)

/-! ### What a step runs -/

/-- Reset (R230, R231): every register and ghost at its reset value, no traced call. The build's
configuration and what the outside still holds ready are not the machine's to reset (assumption 14). -/
def resetEvent (s : State) : State :=
  { State.reset with cfg := s.cfg, script := s.script, oracle := s.oracle, port := s.port }

/-- The code word the step decodes and the state with the port entry taken, or the reset event.
A HOSTCMD or DRV word at the port goes first; with no command presented (HOSTCMD 00, or an empty port)
the phase register selects the operation (R15, R82, R204; assumption 4). -/
def fetch (s : State) : Option CodeWord × State :=
  match s.port with
  | [] => (some (.phase (phaseCode s.ph)), s)
  | .host c :: rest =>
    if c = 0#2 then (some (.phase (phaseCode s.ph)), { s with port := rest })
    else (some (.hostcmd c), { s with port := rest })
  | .drv w :: rest => (some (.drv w), { s with port := rest })
  | .reset :: rest => (none, { s with port := rest })

/-- A step whose code word selects no operation: an idle engine leaves everything as it is (R101),
a reserved word is a fault (R84). -/
def noOperation (e : DecodeError) (s : State) : Host.Outcome State Fault Refusal :=
  match e with
  | .noCommand => .next s
  | .noOperation => .next s
  | .reservedHostCmd => .fault (.reservedCode .reservedHostCmd)
  | .reservedPhase => .fault (.reservedCode .reservedPhase)
  | .reservedDrv => .fault (.reservedCode .reservedDrv)

/-- `s` with a code word where the next step fetches it: a command or a driver call at the head of the
port, a phase in `PH` with no command presented. `PH` has no reserved value, so a reserved phase code
can stand nowhere and changes nothing (R84). -/
def placeWord (w : CodeWord) (s : State) : State :=
  match w with
  | .hostcmd c => { s with port := .host c :: s.port }
  | .drv d => { s with port := .drv d :: s.port }
  | .phase c =>
    match phaseOfCode c with
    | some p => { s with ph := p, port := .host 0#2 :: s.port }
    | none => s

end Sys2Proof.Machine
end

