-- ==== Sys2Proof/Machine/Detector.lean ====
section
/-! DEFINITION. The bit-sample timing detector and the frame assembler
(spec/42_bit_sample_detector.md, spec/43_frame_assembler.md). -/

namespace Sys2Proof.Machine

/-- `ShiftIn(bit)` (R146). -/
def shiftIn (bit : BitVec 1) (s : State) : State :=
  { s with frame := shiftFrame s.frame s.bitcnt bit, bitcnt := s.bitcnt + 1 }

/-- `BITLOW` (R132). -/
def execBitLow (s : State) : Host.Outcome State Fault Refusal :=
  poll .low s.cfg.bitBudget .bitHigh .bitTimeout s

/-- `BITHIGH` (R133). -/
def execBitHigh (s : State) : Host.Outcome State Fault Refusal :=
  poll .high s.cfg.bitBudget .bitSample .bitTimeout s

/-- After the sample: the bit shifted in, then the next bit or the end of the frame (R134). -/
def takeSample (v : Level) (s : State) : Host.Outcome State Fault Refusal :=
  if s.bitcnt < nbitsFrame then
    .next (leaveWait (if s.bitcnt + 1 = nbitsFrame then .endWait else .bitLow) (shiftIn (levelBit v) s))
  else .fault .frameOverrun

/-- `BITSAMPLE` (R134): the 35 us window, one read, the shift and the count. -/
def execBitSample (s : State) : Host.Outcome State Fault Refusal :=
  andThen (getLevel (delayUs sampleUs s)) fun r => takeSample r.1 r.2

end Sys2Proof.Machine
end

