-- ==== Sys2Proof/Machine/Driver.lean ====
section
/-! DEFINITION. The four driver calls as operations of their own (spec/20_memory.md R41 to R44). -/

namespace Sys2Proof.Machine

/-- `SetDirection d` (R41). -/
def execSetDirection (d : Direction) (s : State) : Host.Outcome State Fault Refusal :=
  .next (setDirection d s)

/-- `SetLevel v` (R42). -/
def execSetLevel (v : Level) (s : State) : Host.Outcome State Fault Refusal :=
  setLevel v s

/-- `GetLevel` (R43): the level answered stands in `TRACE` and in no register. -/
def execGetLevel (s : State) : Host.Outcome State Fault Refusal :=
  andThen (getLevel s) fun r => .next r.2

/-- `DelayUs n` (R44). -/
def execDelayUs (n : Nat) (s : State) : Host.Outcome State Fault Refusal :=
  .next (delayUs n s)

end Sys2Proof.Machine
end

