-- ==== Sys2Proof/Machine/FrameDecoder.lean ====
section
/-! DEFINITION. The humidity and temperature decoder (spec/45_decoder.md). -/

namespace Sys2Proof.Machine

/-- The Reading put into `HUM`, `TSIGN`, `TMAG`, and `TAG <- READING` (R170). -/
def emitReading (r : Reading) (s : State) : State :=
  { s with hum := r.hum, tsign := r.sign, tmag := r.mag, tag := .reading }

/-- `DECODE` (R170): the Reading is computed from the bytes before they are cleared. -/
def execDecode (s : State) : Host.Outcome State Fault Refusal :=
  .next (toIdle (emitReading (readingOf s.frame.b0 s.frame.b1 s.frame.b2 s.frame.b3) s))

end Sys2Proof.Machine
end

