-- ==== Sys2Proof/Machine/Handshake.lean ====
section
/-! DEFINITION. The sensor handshake sequencer (spec/41_handshake_sequencer.md). -/

namespace Sys2Proof.Machine

/-- `START` (R112): the 1000 us low pulse, the release to high, the switch to input. -/
def execStart (s : State) : Host.Outcome State Fault Refusal :=
  andThen (setLevel .low s) fun s =>
    andThen (setLevel .high (delayUs startLowUs s)) fun s =>
      .next (leaveWait .ackLow (setDirection .input s))

/-- `ACKLOW` (R113). -/
def execAckLow (s : State) : Host.Outcome State Fault Refusal :=
  poll .low (.finite s.cfg.ackBudget) .ackHigh .ackTimeout s

/-- `ACKHIGH` (R114): the same cap, counted afresh. -/
def execAckHigh (s : State) : Host.Outcome State Fault Refusal :=
  poll .high (.finite s.cfg.ackBudget) .bitLow .ackTimeout2 s

/-- `END` (R116): the poll, with the line restored before `PH` is written on the success branch. -/
def execEnd (s : State) : Host.Outcome State Fault Refusal :=
  pollThen .low s.cfg.endBudget .endTimeout
    (fun s => andThen (restoreLine s) fun s => .next (leaveWait .validate s)) s

/-- `RECOVER` (R118), the operation of phase `FAIL`. -/
def execRecover (s : State) : Host.Outcome State Fault Refusal :=
  reportFailure s

end Sys2Proof.Machine
end

