-- ==== Sys2Proof/Machine/HostInterface.lean ====
section
/-! DEFINITION. The host commands (spec/40_acquire_host_interface.md). -/

namespace Sys2Proof.Machine

/-- `ACQUIRE` (R102): enabled only while `PH = IDLE`; refused while a cycle runs (U1). The launch premise
on the line is the caller's and is not tested. -/
def execAcquire (s : State) : Host.Outcome State Fault Refusal :=
  if s.ph = .idle then .next { clearScratch (clearOutcome s) with ph := .start }
  else .refused .acquireWhileBusy

/-- `ABORT` (R103): while busy the line is restored, everything is cleared and no outcome is produced;
while idle it has no effect and the outcome stands (R204, D19; assumption 7). -/
def execAbort (s : State) : Host.Outcome State Fault Refusal :=
  if s.ph = .idle then .next s
  else andThen (restoreLine s) fun s => .next (toIdle (clearOutcome s))

end Sys2Proof.Machine
end

