-- ==== Sys2Proof/Machine/Validator.lean ====
section
/-! DEFINITION. The checksum validator (spec/44_checksum_validator.md). -/

namespace Sys2Proof.Machine

/-- `VALIDATE` (R157): on to `DECODE`, or the mismatch reported and the frame discarded, with no driver
call on either branch (D21). -/
def execValidate (s : State) : Host.Outcome State Fault Refusal :=
  if frameValid s.frame then .next { s with ph := .decode }
  else .next (toIdle { s with tag := .checksumMismatch })

end Sys2Proof.Machine
end

