-- ==== Sys2Proof/Machine/Dispatch.lean ====
section
/-! DEFINITION. The dispatch of the sixteen operations to their meanings. -/

namespace Sys2Proof.Machine

def exec (i : Instr) (s : State) : Host.Outcome State Fault Refusal :=
  match i with
  | .acquire => Sys2Proof.Machine.execAcquire s
  | .abort => Sys2Proof.Machine.execAbort s
  | .start => Sys2Proof.Machine.execStart s
  | .ackLow => Sys2Proof.Machine.execAckLow s
  | .ackHigh => Sys2Proof.Machine.execAckHigh s
  | .bitLow => Sys2Proof.Machine.execBitLow s
  | .bitHigh => Sys2Proof.Machine.execBitHigh s
  | .bitSample => Sys2Proof.Machine.execBitSample s
  | .endWait => Sys2Proof.Machine.execEnd s
  | .validate => Sys2Proof.Machine.execValidate s
  | .decodeReading => Sys2Proof.Machine.execDecode s
  | .recover => Sys2Proof.Machine.execRecover s
  | .setDirection d => Sys2Proof.Machine.execSetDirection d s
  | .setLevel v => Sys2Proof.Machine.execSetLevel v s
  | .getLevel => Sys2Proof.Machine.execGetLevel s
  | .delayUs n => Sys2Proof.Machine.execDelayUs n s

end Sys2Proof.Machine
end

