-- ==== Sys2Proof/Machine/Step.lean ====
section
/-! DEFINITION. One step of the machine: a reset, a host command, a driver call of the platform, or the
operation the phase register selects, whole (spec/70_reset_and_hazards.md R238, R241). -/

namespace Sys2Proof.Machine

/-- The operation a code word selects, run; or what the absence of one does. -/
def runWord (w : CodeWord) (s : State) : Host.Outcome State Fault Refusal :=
  match decode w with
  | .ok i => exec i s
  | .error e => noOperation e s

/-- One step. -/
def step (s : State) : Host.Outcome State Fault Refusal :=
  match fetch s with
  | (some w, t) => runWord w t
  | (none, t) => .next (resetEvent t)

/-- `s` with an instruction of the opcode table's numbering where the next step fetches it (assumption 13). -/
def State.withFetchWord (s : State) (nbits w : Nat) : State :=
  match tableWord nbits w with
  | some c => placeWord c s
  | none => s

end Sys2Proof.Machine
end

