-- ==== Sys2Proof/Machine/Cycle.lean ====
section
/-! DEFINITION. The blocking call `acquire()` as the host makes it (spec/30_encoding.md R88,
spec/40_acquire_host_interface.md R104). -/

namespace Sys2Proof.Machine

/-- Steps until `PH = IDLE`, at most `fuel` of them (R104). -/
def runToIdle : Nat → State → Host.Outcome State Fault Refusal
  | 0, s => .next s
  | n + 1, s => if s.ph = .idle then .next s else andThen (step s) (runToIdle n)

/-- `acquire()`: the command, then steps until `PH = IDLE` (R88, R104). -/
def acquireCall (fuel : Nat) (s : State) : Host.Outcome State Fault Refusal :=
  andThen (execAcquire s) (runToIdle fuel)

/-- The most steps a hardened cycle can take (R240); with `INF` there is no such number. -/
def cycleStepBound (c : Cfg) : Option Nat :=
  match c.bitBudget, c.endBudget with
  | .finite b, .finite e => some (1 + 2 * c.ackBudget + 40 * (2 * b + 1) + e + 2)
  | _, _ => none

end Sys2Proof.Machine
end

