-- ==== Sys2Proof/Machine/Timing.lean ====
section
/-! DEFINITION. What the spec says of time: the ghosts recomputed from `TRACE`, and the optional timed
reading of the environment (spec/10_state.md R31, spec/20_memory.md R60 to R62). Nothing here is used by
the step. -/

namespace Sys2Proof.Machine

/-- The microseconds a driver call asks for. -/
def requestedUs : DrvCall → Nat
  | .setDirection _ => 0
  | .setLevel _ => 0
  | .getLevel _ => 0
  | .delayUs n => n

/-- The line reads a driver call makes. -/
def readsOf : DrvCall → Nat
  | .setDirection _ => 0
  | .setLevel _ => 0
  | .getLevel _ => 1
  | .delayUs _ => 0

/-- The sum of the requested delays of a trace: what `T` is of `TRACE` (R31). -/
def traceUs (tr : List DrvCall) : Nat := (tr.map requestedUs).sum

/-- The number of reads of a trace: what `NREAD` is of `TRACE` (R31). -/
def traceReads (tr : List DrvCall) : Nat := (tr.map readsOf).sum

/-- Time passed over a trace under R60, `draws` being the overheads `e`, `e'` of its calls (a call
without a draw has none: the deterministic simulator). DESIGN CHOICE, assumption 21: R60 gives time and the
draws no type; here both are whole microseconds, one draw a call. -/
def elapsedUs : List DrvCall → List Nat → Nat
  | [], _ => 0
  | c :: rest, draws => requestedUs c + draws.headD 0 + elapsedUs rest draws.tail

/-- Whether the waveform `w` explains the answers of a trace that begins at `now` (R60):
each `GetLevel` answers the level of its instant. DESIGN CHOICE, assumption 21: instants are whole
microseconds, so an edge or an overhead below 1 us cannot be shown. -/
def waveExplains (w : Nat → Level) : Nat → List DrvCall → List Nat → Bool
  | _, [], _ => true
  | now, .getLevel v :: rest, draws => (v == w now) && waveExplains w (now + draws.headD 0) rest draws.tail
  | now, .delayUs n :: rest, draws => waveExplains w (now + n + draws.headD 0) rest draws.tail
  | now, .setDirection _ :: rest, draws => waveExplains w (now + draws.headD 0) rest draws.tail
  | now, .setLevel _ :: rest, draws => waveExplains w (now + draws.headD 0) rest draws.tail

/-- How long after its start the operation of a code word reads the line: `BITSAMPLE` reads after its window
(R134), a poll and a bare `GetLevel` read first (R110, R43). -/
def readDelay (w : CodeWord) : Nat := if decode w = .ok .bitSample then sampleUs else 0

/-- The instant of the read the next step makes, if it makes one: the delay is that of the code word the step
fetches, be it the phase's or a driver call at the port. -/
def readInstant (s : State) : Nat :=
  match (fetch s).1 with
  | some w => s.tUs + readDelay w
  | none => s.tUs

/-- One step of the deterministic simulator (R60 with every draw 0): the waveform, on the clock `T` (assumption
21), answers the one read a step can make. -/
def simulateStep (w : Nat → Level) (s : State) : Host.Outcome State Fault Refusal :=
  step { s with script := [w (readInstant s)] }

/-- The simulator run until `PH = IDLE`. -/
def simulateToIdle (w : Nat → Level) : Nat → State → Host.Outcome State Fault Refusal
  | 0, s => .next s
  | n + 1, s => if s.ph = .idle then .next s else andThen (simulateStep w s) (simulateToIdle w n)

/-- The waveform of a released line that nothing at the far end drives: the idle level, pulled up (R62). -/
def undrivenWave : Nat → Level := fun _ => .high

/-- The operation an entry of `TRACE` records; its code word is the `DRV` word the engine presented (R83). -/
def callInstr : DrvCall → Instr
  | .setDirection d => .setDirection d
  | .setLevel v => .setLevel v
  | .getLevel _ => .getLevel
  | .delayUs n => .delayUs n

end Sys2Proof.Machine
end

