-- ==== Sys2Proof/Safety.lean ====
section
/-! DEFINITION. The terms claims are stated in: the launch premises (spec/70_reset_and_hazards.md R236),
the host's duties (spec/40_acquire_host_interface.md R106), and what holds in every state that a run from
reset under those duties reaches (spec/10_state.md R17, R23, R26, R29). -/

namespace Sys2Proof.Machine

/-- Whether a budget is `INF` or at least 1 (R7). -/
def budgetOk : Budget → Bool
  | .inf => true
  | .finite n => decide (1 ≤ n)

/-- `CfgOk` (R236, R7). -/
abbrev CfgOk (c : Cfg) : Prop := 1 ≤ c.ackBudget ∧ budgetOk c.bitBudget = true ∧ budgetOk c.endBudget = true

/-- A hardened configuration: both open budgets finite (R7). -/
def hardened (c : Cfg) : Bool := c.bitBudget != .inf && c.endBudget != .inf

/-- `LineIdle` (R236). -/
abbrev LineIdle (s : State) : Prop := s.dir = .output ∧ s.out = .high

/-- `CleanScratch` (R236, R29). -/
abbrev CleanScratch (s : State) : Prop := s.frame = Frame.zero ∧ s.bitcnt = 0 ∧ s.spin = 0 ∧ s.cause = .none

/-- No Reading in the outcome registers (R23). -/
abbrev NoReading (s : State) : Prop := s.hum = 0 ∧ s.tsign = 0 ∧ s.tmag = 0

/-- The launch premises of R236 for a cycle started by `ACQUIRE`. -/
abbrev Launch (s : State) : Prop := s.ph = .idle ∧ CleanScratch s ∧ LineIdle s ∧ CfgOk s.cfg

/-- Whether a port entry is a word of the host's or a reset, not a driver call from outside the engine:
the exclusive access the engine assumes (R56, R106). -/
def hostOwned : PortWord → Bool
  | .host _ => true
  | .drv _ => false
  | .reset => true

/-- Whether a port entry presents no command (HOSTCMD 00, R82). -/
def noCommandWord : PortWord → Bool
  | .host c => decide (c = 0#2)
  | .drv _ => false
  | .reset => false

/-- Whether a port entry is a reserved HOSTCMD word (R84). -/
def reservedHostWord : PortWord → Bool
  | .host c => decide (c = 3#2)
  | .drv _ => false
  | .reset => false

/-- The line is the engine's alone: nothing at the port is a driver call (R106). -/
def lineExclusive (s : State) : Bool := s.port.all hostOwned

/-- The host presents no command, now or later: the engine runs on (R104). -/
def quiet (s : State) : Bool := s.port.all noCommandWord

/-- Whether a spin count can stand under a budget: below a finite cap, 0 under `INF` (R18, R110). -/
def spinWithin : Budget → Nat → Bool
  | .inf, k => decide (k = 0)
  | .finite n, k => decide (k < n)

/-- The phases in which the line is the far end's (R45). -/
def inputPhase : Phase → Bool
  | .idle => false
  | .start => false
  | .ackLow => true
  | .ackHigh => true
  | .bitLow => true
  | .bitHigh => true
  | .bitSample => true
  | .endWait => true
  | .validate => false
  | .decode => false
  | .fail => true

/-- The direction of the line follows the phase, and the host side's level is high between operations
(R26, R45, R46, R119). -/
abbrev LineFollowsPhase (s : State) : Prop :=
  s.dir = (if inputPhase s.ph then .input else .output) ∧ s.out = .high

/-- How many bits a phase has received (R17). -/
abbrev BitCountFollowsPhase (s : State) : Prop :=
  (s.ph = .idle ∨ s.ph = .start ∨ s.ph = .ackLow ∨ s.ph = .ackHigh → s.bitcnt = 0 ∧ s.frame = Frame.zero) ∧
  (s.ph = .bitLow ∨ s.ph = .bitHigh ∨ s.ph = .bitSample → s.bitcnt < 40) ∧
  (s.ph = .endWait ∨ s.ph = .validate ∨ s.ph = .decode → s.bitcnt = 40) ∧
  (s.ph = .fail → s.bitcnt ≤ 40)

/-- `SPIN` is within the budget of the wait, and 0 where no wait is under way (R18, R110). -/
abbrev SpinFollowsPhase (s : State) : Prop :=
  (s.ph = .ackLow ∨ s.ph = .ackHigh → s.spin < s.cfg.ackBudget) ∧
  (s.ph = .bitLow ∨ s.ph = .bitHigh → spinWithin s.cfg.bitBudget s.spin = true) ∧
  (s.ph = .endWait → spinWithin s.cfg.endBudget s.spin = true) ∧
  (s.ph = .idle ∨ s.ph = .start ∨ s.ph = .bitSample ∨ s.ph = .validate ∨ s.ph = .decode → s.spin = 0)

/-- `CAUSE` holds one of the four timeouts in phase `FAIL` and nothing elsewhere (R19). -/
abbrev CauseFollowsPhase (s : State) : Prop :=
  (s.ph = .fail →
    s.cause = .ackTimeout ∨ s.cause = .ackTimeout2 ∨ s.cause = .bitTimeout ∨ s.cause = .endTimeout) ∧
  (s.ph ≠ .fail → s.cause = .none)

/-- The outcome registers: no outcome while a cycle runs, and no Reading without the tag of one (R22, R23). -/
abbrev OutcomeFollowsPhase (s : State) : Prop :=
  (s.ph ≠ .idle → s.tag = .none) ∧ (s.tag ≠ .reading → NoReading s)

/-- Only a frame that passed the check is decoded (R150, R157). -/
abbrev DecodesValidFrame (s : State) : Prop := s.ph = .decode → frameValid s.frame = true

/-- What holds in every state that a run from reset reaches under the host's duties. -/
abbrev EngineInv (s : State) : Prop :=
  CfgOk s.cfg ∧ lineExclusive s = true ∧ LineFollowsPhase s ∧ BitCountFollowsPhase s ∧ SpinFollowsPhase s ∧
    CauseFollowsPhase s ∧ OutcomeFollowsPhase s ∧ DecodesValidFrame s

/-- The ghosts `T` and `NREAD` are what R31 says they are of `TRACE`. -/
abbrev GhostsAgree (s : State) : Prop := s.tUs = traceUs s.trace ∧ s.nread = traceReads s.trace

/-- `s` without its ghost history, which the engine never reads (R30, R31). -/
def eraseGhosts (s : State) : State := { s with trace := [], tUs := 0, nread := 0 }

/-- An outcome without its ghost history. -/
def eraseOutcome : Host.Outcome State Fault Refusal → Host.Outcome State Fault Refusal
  | .next s => .next (eraseGhosts s)
  | .fault f => .fault f
  | .refused r => .refused r

/-- How many polls a wait under a finite budget has left. -/
def pollsLeft : Budget → Nat → Nat
  | .inf, _ => 0
  | .finite n, k => n - k

/-- The most steps still to come in a hardened cycle: R240's count, from any phase. -/
def stepsLeft (s : State) : Nat :=
  let bit := pollsLeft s.cfg.bitBudget 0
  let cell := 2 * bit + 1
  let tail := pollsLeft s.cfg.endBudget 0 + 2
  match s.ph with
  | .idle => 0
  | .start => 1 + 2 * s.cfg.ackBudget + 40 * cell + tail
  | .ackLow => (s.cfg.ackBudget - s.spin) + s.cfg.ackBudget + 40 * cell + tail
  | .ackHigh => (s.cfg.ackBudget - s.spin) + 40 * cell + tail
  | .bitLow => pollsLeft s.cfg.bitBudget s.spin + bit + 1 + (39 - s.bitcnt) * cell + tail
  | .bitHigh => pollsLeft s.cfg.bitBudget s.spin + 1 + (39 - s.bitcnt) * cell + tail
  | .bitSample => 1 + (39 - s.bitcnt) * cell + tail
  | .endWait => pollsLeft s.cfg.endBudget s.spin + 2
  | .validate => 2
  | .decode => 1
  | .fail => 1

/-- The phases an operation of a phase can lead to, with no command presented (R16). -/
def successors : Phase → List Phase
  | .idle => [.idle]
  | .start => [.ackLow]
  | .ackLow => [.ackHigh, .ackLow, .fail]
  | .ackHigh => [.bitLow, .ackHigh, .fail]
  | .bitLow => [.bitHigh, .bitLow, .fail]
  | .bitHigh => [.bitSample, .bitHigh, .fail]
  | .bitSample => [.bitLow, .endWait]
  | .endWait => [.validate, .endWait, .fail]
  | .validate => [.decode, .idle]
  | .decode => [.idle]
  | .fail => [.idle]

/-- The operations that may write the frame bytes and `BITCNT` (R33). -/
def writesFrame : Instr → Bool
  | .acquire | .abort | .bitSample | .validate | .decodeReading | .recover => true
  | .start | .ackLow | .ackHigh | .bitLow | .bitHigh | .endWait => false
  | .setDirection _ | .setLevel _ | .getLevel | .delayUs _ => false

/-- The operations that may write `SPIN` (R33). -/
def writesSpin : Instr → Bool
  | .acquire | .abort | .start | .ackLow | .ackHigh | .bitLow | .bitHigh | .bitSample | .endWait => true
  | .validate | .decodeReading | .recover => true
  | .setDirection _ | .setLevel _ | .getLevel | .delayUs _ => false

/-- The operations that may write `CAUSE` (R33). -/
def writesCause : Instr → Bool
  | .acquire | .abort | .ackLow | .ackHigh | .bitLow | .bitHigh | .endWait => true
  | .validate | .decodeReading | .recover => true
  | .start | .bitSample => false
  | .setDirection _ | .setLevel _ | .getLevel | .delayUs _ => false

/-- The operations that may write `TAG` (R33, R22). -/
def writesTag : Instr → Bool
  | .acquire | .abort | .validate | .decodeReading | .recover => true
  | .start | .ackLow | .ackHigh | .bitLow | .bitHigh | .bitSample | .endWait => false
  | .setDirection _ | .setLevel _ | .getLevel | .delayUs _ => false

/-- The operations that may write `HUM`, `TSIGN`, `TMAG` (R33, R23). -/
def writesReading : Instr → Bool
  | .acquire | .abort | .decodeReading => true
  | .start | .ackLow | .ackHigh | .bitLow | .bitHigh | .bitSample | .endWait | .validate | .recover => false
  | .setDirection _ | .setLevel _ | .getLevel | .delayUs _ => false

/-- The operations that may write `DIR` (R33), `SetDirection` itself among them. -/
def writesDir : Instr → Bool
  | .abort | .start | .endWait | .recover | .setDirection _ => true
  | .acquire | .ackLow | .ackHigh | .bitLow | .bitHigh | .bitSample | .validate | .decodeReading => false
  | .setLevel _ | .getLevel | .delayUs _ => false

/-- The operations that may write `OUT` (R33), `SetLevel` itself among them. -/
def writesOut : Instr → Bool
  | .abort | .start | .endWait | .recover | .setLevel _ => true
  | .acquire | .ackLow | .ackHigh | .bitLow | .bitHigh | .bitSample | .validate | .decodeReading => false
  | .setDirection _ | .getLevel | .delayUs _ => false

/-- The driver calls, which are no part of the sequence and leave `PH` alone (R33). -/
def driverCall : Instr → Bool
  | .setDirection _ | .setLevel _ | .getLevel | .delayUs _ => true
  | .acquire | .abort | .start | .ackLow | .ackHigh | .bitLow | .bitHigh | .bitSample | .endWait => false
  | .validate | .decodeReading | .recover => false

/-- The state after a read that answered `nextAnswer s` and after the calls `more`, which take `us`. -/
def readThen (more : List DrvCall) (us : Nat) (s : State) : State :=
  { dropAnswer s with
    nread := s.nread + 1
    tUs := s.tUs + us
    trace := s.trace ++ .getLevel (nextAnswer s) :: more }

/-- What one iteration of a wait does in input mode, spelt out (R110): `i` waits for `target` under the
budget `budget`, goes on to `next`, and fails with `cause`. -/
def PollSpec (i : Instr) (target : Level) (budget : Cfg → Budget) (next : Phase) (cause : Tag) : Prop :=
  ∀ s : State, s.dir = .input →
    (nextAnswer s = target → exec i s = .next { readThen [] 0 s with spin := 0, ph := next }) ∧
    (nextAnswer s ≠ target → budget s.cfg = .inf → exec i s = .next (readThen [.delayUs 1] 1 s)) ∧
    (∀ n, nextAnswer s ≠ target → budget s.cfg = .finite n → s.spin + 1 ≠ n →
      exec i s = .next { readThen [.delayUs 1] 1 s with spin := s.spin + 1 }) ∧
    (∀ n, nextAnswer s ≠ target → budget s.cfg = .finite n → s.spin + 1 = n →
      exec i s = .next { readThen [.delayUs 1] 1 s with spin := s.spin + 1, cause := cause, ph := .fail })

/-- What a whole wait in phase `p` does, begun with `SPIN = 0` and no command presented, in terms of `WaitLevel`
over the next `n` answers (R110 a, b, d): it ends after the first right answer; it fails after as many wrong ones
as a finite budget allows; and as long as neither has come it is still waiting. -/
def WaitSpec (p : Phase) (target : Level) (budget : Cfg → Budget) (next : Phase) (cause : Tag) : Prop :=
  ∀ (s : State) (n : Nat), s.ph = p → s.dir = .input → s.spin = 0 → s.port = [] → budgetOk (budget s.cfg) = true →
    (∀ j, waitLevel target (budget s.cfg) (nextAnswers n s) = .ok j →
      ∃ t, Host.Core.run Sys2Proof.core (j + 1) s = .next t ∧ t.ph = next ∧ t.spin = 0 ∧ t.cause = s.cause ∧
        t.nread = s.nread + (j + 1) ∧ t.tUs = s.tUs + j ∧ t.script = s.script.drop (j + 1)) ∧
    (∀ b, budget s.cfg = .finite b → waitLevel target (budget s.cfg) (nextAnswers n s) = .timeout →
      ∃ t, Host.Core.run Sys2Proof.core b s = .next t ∧ t.ph = .fail ∧ t.cause = cause ∧ t.spin = b ∧
        t.nread = s.nread + b ∧ t.tUs = s.tUs + b ∧ t.script = s.script.drop b) ∧
    (waitLevel target (budget s.cfg) (nextAnswers n s) = .undecided →
      ∃ t, Host.Core.run Sys2Proof.core n s = .next t ∧ t.ph = p ∧ t.cause = s.cause ∧
        t.spin = (if budget s.cfg = .inf then 0 else n) ∧
        t.nread = s.nread + n ∧ t.tUs = s.tUs + n ∧ t.script = s.script.drop n)

/-- One bit cell of a script (R137): `c` wrong answers to `BITLOW`, `d` to `BITHIGH`, and the sample. -/
structure BitCell where
  c : Nat
  d : Nat
  sample : Level
  deriving DecidableEq, Repr

/-- The answers of one bit cell (R137). -/
def cellScript (k : BitCell) : List Level :=
  List.replicate k.c .high ++ .low :: (List.replicate k.d .low ++ [.high, k.sample])

/-- The script of a whole cycle that is not cut short (R137). -/
def cycleScript (a b : Nat) (cells : List BitCell) (e : Nat) : List Level :=
  List.replicate a .high ++ .low :: (List.replicate b .low ++ .high :: ((cells.map cellScript).flatten ++
    (List.replicate e .high ++ [.low])))

/-- Whether a budget admits `k` wrong answers before the right one (R110). -/
def admitsMisses : Budget → Nat → Bool
  | .inf, _ => true
  | .finite n, k => decide (k < n)

/-- The frame a cycle's cells carry: each sample shifted in, from a clear frame (R146, R148). -/
def frameOfCells (cells : List BitCell) : Frame :=
  shiftBits Frame.zero 0 (cells.map fun k => levelBit k.sample)

/-- The wrong answers of the cells, all told (R137). -/
def cellMisses (cells : List BitCell) : Nat := (cells.map fun k => k.c + k.d).sum

/-- What a cycle that received the frame `f` returns (R157, R170). -/
def outcomeOfFrame (f : Frame) : AcquisitionOutcome :=
  if frameValid f then .reading (readingOf f.b0 f.b1 f.b2 f.b3) else .checksumMismatch

end Sys2Proof.Machine
end

