-- ==== Sys2Proof/Certificates/Slice0/Obligations.lean ====
section
/-! DEFINITION. The statements for the provers, from the numbered rules of spec/. -/

open Sys2Proof Sys2Proof.Machine

/-! ### Encoding -/

/-- Decoding the code word of a well-formed operation gives the operation back, for all sixteen, with
every operand the encoding admits (30_encoding.md section 3). -/
def Obligations.DecodeOfEncode : Prop :=
  ∀ i : Instr, i.wf = true → decode (encode i) = .ok i

/-- Each code word has at most one meaning: whatever decodes is the code word of what it decodes to. -/
def Obligations.EncodeOfDecode : Prop :=
  ∀ (w : CodeWord) (i : Instr), decode w = .ok i → encode i = w

/-- The driver words that 95_test_vectors.md prints in program P1, and the two host commands of R82. -/
def Obligations.PrintedWordsDecode : Prop :=
  decode (.drv 0x400#12) = .ok (.setLevel .low) ∧ decode (.drv 0xFE8#12) = .ok (.delayUs 1000) ∧
  decode (.drv 0x401#12) = .ok (.setLevel .high) ∧ decode (.drv 0x000#12) = .ok (.setDirection .input) ∧
  decode (.drv 0x800#12) = .ok .getLevel ∧ decode (.drv 0xC23#12) = .ok (.delayUs 35) ∧
  decode (.drv 0xC01#12) = .ok (.delayUs 1) ∧ decode (.drv 0x001#12) = .ok (.setDirection .output) ∧
  decode (.hostcmd 0b01#2) = .ok .acquire ∧ decode (.hostcmd 0b10#2) = .ok .abort

/-- The phase register selects its operation by its code; `IDLE` selects none (R15, R80). -/
def Obligations.PhaseSelectsOperation : Prop :=
  decode (.phase (phaseCode .idle)) = .error .noOperation ∧
  decode (.phase (phaseCode .start)) = .ok .start ∧ decode (.phase (phaseCode .ackLow)) = .ok .ackLow ∧
  decode (.phase (phaseCode .ackHigh)) = .ok .ackHigh ∧ decode (.phase (phaseCode .bitLow)) = .ok .bitLow ∧
  decode (.phase (phaseCode .bitHigh)) = .ok .bitHigh ∧
  decode (.phase (phaseCode .bitSample)) = .ok .bitSample ∧
  decode (.phase (phaseCode .endWait)) = .ok .endWait ∧
  decode (.phase (phaseCode .validate)) = .ok .validate ∧
  decode (.phase (phaseCode .decode)) = .ok .decodeReading ∧
  decode (.phase (phaseCode .fail)) = .ok .recover

/-- Reserved codes are rejected by name and a step that meets one at the port faults (R84). That a reserved
word at the port is met at all is the model's choice, assumption 4. -/
def Obligations.ReservedWordsFault : Prop :=
  (∀ c : BitVec 4, 11 ≤ c.toNat → decode (.phase c) = .error .reservedPhase) ∧
  (∀ (s : State) (rest : List PortWord), s.port = .host 0b11#2 :: rest →
    step s = .fault (.reservedCode .reservedHostCmd)) ∧
  (∀ (s : State) (w : BitVec 12) (rest : List PortWord), s.port = .drv w :: rest →
    ((drvOp w).toNat = 0 ∨ (drvOp w).toNat = 1) ∧ 2 ≤ (drvArg w).toNat ∨
      (drvOp w).toNat = 2 ∧ (drvArg w).toNat ≠ 0 →
    step s = .fault (.reservedCode .reservedDrv))

/-! ### Steps -/

/-- A step runs the operation its code word decodes to: of a command or a driver call at the head of the
port, which is taken, and else of the phase register. The port is the model's choice, assumption 4. -/
def Obligations.StepRunsDecodedInstruction : Prop :=
  (∀ (s : State) (i : Instr), i.wf = true → s.port = [] → decode (.phase (phaseCode s.ph)) = .ok i →
    step s = exec i s) ∧
  (∀ (s : State) (rest : List PortWord) (i : Instr), i.wf = true → s.port = .host 0#2 :: rest →
    decode (.phase (phaseCode s.ph)) = .ok i → step s = exec i { s with port := rest }) ∧
  (∀ (s : State) (c : BitVec 2) (rest : List PortWord) (i : Instr), i.wf = true → s.port = .host c :: rest →
    decode (.hostcmd c) = .ok i → step s = exec i { s with port := rest }) ∧
  (∀ (s : State) (w : BitVec 12) (rest : List PortWord) (i : Instr), i.wf = true → s.port = .drv w :: rest →
    decode (.drv w) = .ok i → step s = exec i { s with port := rest })

/-- An idle engine with no command presented leaves everything as it is, and so keeps its outcome (R101,
R105). That such a step answers a next state, and no refusal, is the model's choice, assumption 6. -/
def Obligations.IdleEngineWaits : Prop :=
  (∀ s : State, s.ph = .idle → s.port = [] → step s = .next s) ∧
  (∀ (s : State) (rest : List PortWord), s.ph = .idle → s.port = .host 0#2 :: rest →
    step s = .next { s with port := rest } ∧ outcomeWord { s with port := rest } = outcomeWord s)

/-- Reset from any state puts every register and ghost at its reset value, with no traced call (R230, R231).
What it leaves of the configuration, the script and the port is the model's choice, assumption 14. -/
def Obligations.ResetEventResult : Prop :=
  ∀ (s : State) (rest : List PortWord), s.port = .reset :: rest →
    step s = .next { State.reset with cfg := s.cfg, script := s.script, oracle := s.oracle, port := rest }

/-- The values R32 gives every register and ghost after reset. -/
def Obligations.ResetStateValues : Prop :=
  State.reset.ph = .idle ∧ State.reset.bitcnt = 0 ∧ State.reset.spin = 0 ∧ State.reset.cause = .none ∧
  (∀ i, i < 5 → frameByte State.reset.frame i = 0) ∧ State.reset.tag = .none ∧ State.reset.hum = 0 ∧
  State.reset.tsign = 0 ∧ State.reset.tmag = 0 ∧ State.reset.dir = .output ∧ State.reset.out = .high ∧
  State.reset.trace = [] ∧ State.reset.tUs = 0 ∧ State.reset.nread = 0

/-- The invariant and the launch premises of R236 hold in the reset state. -/
def Obligations.ResetMeetsInvariant : Prop :=
  EngineInv State.reset ∧ Launch State.reset ∧ GhostsAgree State.reset

/-- Every step keeps the invariant: the line's direction follows the phase and it is idle-high in `IDLE`
(R119), the scratch is clean in `IDLE` (R29), `BITCNT` counts as R17 says, `SPIN` stays within its budget,
`CAUSE` stands only in `FAIL` (R19), no outcome stands while a cycle runs (R22), no Reading without its tag
(R23), and only a valid frame reaches `DECODE`. `EngineInv` takes exclusive use of the line as a premise (R106). -/
def Obligations.StepKeepsInvariant : Prop :=
  ∀ s t : State, EngineInv s → step s = .next t → EngineInv t

/-- Under the host's duties no step faults: no driver call leaves its contract (R45) and no reserved code is
met (R197). -/
def Obligations.NoModelFault : Prop :=
  ∀ (s : State) (f : Fault), EngineInv s → (s.port.all fun w => !reservedHostWord w) = true → step s ≠ .fault f

/-- A busy engine with no command presented always has its step (R241). -/
def Obligations.BusyEngineProgresses : Prop :=
  ∀ s : State, EngineInv s → quiet s = true → s.ph ≠ .idle → ∃ t, step s = .next t

/-- The transition table's targets (R16), with no command presented. -/
def Obligations.PhaseTransitions : Prop :=
  ∀ s t : State, quiet s = true → step s = .next t → t.ph ∈ successors s.ph

/-- `T` is the sum of the delays of `TRACE` and `NREAD` the number of its reads, after every step (R31). -/
def Obligations.GhostsFollowTrace : Prop :=
  ∀ s t : State, GhostsAgree s → step s = .next t → GhostsAgree t

/-- `T` is a lower bound on elapsed time (10_state.md section 8): what an operation adds to it is at most the
time its calls take under any overheads, is that time exactly when there is none, and is what its `DelayUs` calls
ask for. That time is whole microseconds is the model's choice, assumption 21. -/
def Obligations.RequestedTimeIsLowerBound : Prop :=
  ∀ (i : Instr) (s t : State), exec i s = .next t →
    ∃ calls, t.trace = s.trace ++ calls ∧ (∀ draws, t.tUs ≤ s.tUs + elapsedUs calls draws) ∧
      t.tUs = s.tUs + elapsedUs calls [] ∧
      t.tUs = s.tUs + (calls.map fun c => match c with
        | .delayUs n => n
        | .setDirection _ | .setLevel _ | .getLevel _ => 0).sum

/-- The deterministic simulator's answers come from its waveform (R60): one of its steps, whatever the port
presents, leads from a trace that the waveform explains on the clock `T` to one that it explains. That clock is the
model's choice, assumption 21. -/
def Obligations.SimulatorFollowsWaveform : Prop :=
  ∀ (w : Nat → Level) (s t : State), GhostsAgree s → waveExplains w 0 s.trace [] = true → simulateStep w s = .next t → waveExplains w 0 t.trace [] = true

/-! ### The host commands -/

/-- `ACQUIRE` (R102): while idle it clears the outcome and the scratch and selects `START`; while busy it is
refused; the launch premise is not tested, so with the line in input mode `START` is what faults. -/
def Obligations.AcquireResult : Prop :=
  (∀ s : State, s.ph = .idle → exec .acquire s = .next
    { s with tag := .none, hum := 0, tsign := 0, tmag := 0, frame := Frame.zero, bitcnt := 0, spin := 0,
             cause := .none, ph := .start }) ∧
  (∀ s : State, s.ph ≠ .idle → exec .acquire s = .refused .acquireWhileBusy) ∧
  (∀ s : State, s.ph = .idle → s.dir = .input →
    ∃ t, exec .acquire s = .next t ∧ exec .start t = .fault .setLevelInInput)

/-- `ABORT` (40_acquire_host_interface.md section 3): while busy it restores the line, clears everything and returns
to `IDLE` with no outcome; while idle it has no effect. That it then answers the same state, and no refusal, is the
model's reading of 'no effect, no step', assumption 7. -/
def Obligations.AbortResult : Prop :=
  (∀ s : State, s.ph ≠ .idle → exec .abort s = .next
    { s with dir := .output, out := .high,
             trace := s.trace ++ [.setDirection .output, .setLevel .high],
             tag := .none, hum := 0, tsign := 0, tmag := 0, frame := Frame.zero, bitcnt := 0, spin := 0,
             cause := .none, ph := .idle }) ∧
  (∀ s : State, s.ph = .idle → exec .abort s = .next s)

/-- An `ABORT` that finds the engine back in `IDLE` leaves the outcome standing (60_exceptions.md section 3), also as a
step; only the port entry is taken, and the next command is met. The port is assumption 4, the next state assumption 7,
both the model's. -/
def Obligations.LateAbortLeavesOutcome : Prop :=
  ∀ (s : State) (rest : List PortWord), s.ph = .idle → s.port = .host 0b10#2 :: rest →
    ∃ t, step s = .next t ∧ t = { s with port := rest } ∧ outcomeWord t = outcomeWord s ∧ result t = result s

/-- Reset during a cycle acts as `ABORT` as far as the state goes: they differ in the ghosts alone
(70_reset_and_hazards.md section 1). That reset keeps the configuration, the script, the count of free answers and the
port, as `ABORT` does, is the model's choice, assumption 14. -/
def Obligations.ResetActsAsAbort : Prop :=
  ∀ (s t u : State) (rest : List PortWord), s.ph ≠ .idle → s.port = .reset :: rest → step s = .next t →
    exec .abort { s with port := rest } = .next u → eraseGhosts t = eraseGhosts u

/-! ### The engine's operations -/

/-- `START` (R112): one 1000 us low pulse, release to high, then input mode at once; the line is not read and
nothing can fail. -/
def Obligations.StartResult : Prop :=
  ∀ s : State, s.dir = .output → exec .start s = .next
    { s with trace := s.trace ++ [.setLevel .low, .delayUs 1000, .setLevel .high, .setDirection .input],
             tUs := s.tUs + 1000, out := .high, dir := .input, spin := 0, ph := .ackLow }

/-- Outside the driver's contract (R45): with the line in the wrong mode each operation that makes such a call
faults. -/
def Obligations.ContractViolationsFault : Prop :=
  (∀ s : State, s.dir = .input → exec .start s = .fault .setLevelInInput ∧
    ∀ v, exec (.setLevel v) s = .fault .setLevelInInput) ∧
  (∀ s : State, s.dir = .output → ∀ i : Instr,
    i = .ackLow ∨ i = .ackHigh ∨ i = .bitLow ∨ i = .bitHigh ∨ i = .bitSample ∨ i = .endWait ∨ i = .getLevel →
    exec i s = .fault .getLevelInOutput)

/-- The four plain waits (R110, R113, R114, R132, R133), each with its level, budget, next phase and cause. The
shape of the poll is the spec's own choice (D4, D29; assumption 16). What a poll does from a `SPIN` at or above its
budget, or under a budget of 0, is the model's choice, assumption 10. -/
def Obligations.PollOperations : Prop :=
  PollSpec .ackLow .low (fun c => .finite c.ackBudget) .ackHigh .ackTimeout ∧
  PollSpec .ackHigh .high (fun c => .finite c.ackBudget) .bitLow .ackTimeout2 ∧
  PollSpec .bitLow .low (fun c => c.bitBudget) .bitHigh .bitTimeout ∧
  PollSpec .bitHigh .high (fun c => c.bitBudget) .bitSample .bitTimeout

/-- `END` (41_handshake_sequencer.md section 5): on `LOW` the line is restored and `VALIDATE` is next; else one delay,
counted if `END_BUDGET` is finite, failing with `END_TIMEOUT` when the count reaches it. The `HIGH` branch is the poll,
whose shape and spacing are the spec's own choice (D4, D5; assumption 16); what it does from a `SPIN` at or above
`END_BUDGET`, or under a budget of 0, is the model's choice, assumption 10. -/
def Obligations.EndResult : Prop :=
  ∀ s : State, s.dir = .input →
    (nextAnswer s = .low → exec .endWait s = .next
      { readThen [.setDirection .output, .setLevel .high] 0 s with
          dir := .output, out := .high, spin := 0, ph := .validate }) ∧
    (nextAnswer s = .high → s.cfg.endBudget = .inf → exec .endWait s = .next (readThen [.delayUs 1] 1 s)) ∧
    (∀ n, nextAnswer s = .high → s.cfg.endBudget = .finite n → s.spin + 1 ≠ n →
      exec .endWait s = .next { readThen [.delayUs 1] 1 s with spin := s.spin + 1 }) ∧
    (∀ n, nextAnswer s = .high → s.cfg.endBudget = .finite n → s.spin + 1 = n → exec .endWait s = .next
      { readThen [.delayUs 1] 1 s with spin := s.spin + 1, cause := .endTimeout, ph := .fail })

/-- `BITSAMPLE` (R134, R146): 35 us, one read, the bit shifted into byte `BITCNT div 8` at bit 0 with the old
bit 7 dropped, the count raised, and `END` after the 40th bit. -/
def Obligations.BitSampleResult : Prop :=
  ∀ (s : State) (i : Nat), s.dir = .input → s.bitcnt < 40 → i = s.bitcnt / 8 →
    ∃ t, exec .bitSample s = .next t ∧
      (frameByte t.frame i).toNat =
        (2 * (frameByte s.frame i).toNat + (if nextAnswer s = .high then 1 else 0)) % 256 ∧
      (∀ j, j ≠ i → frameByte t.frame j = frameByte s.frame j) ∧
      t = { dropAnswer s with
              frame := t.frame, bitcnt := s.bitcnt + 1, spin := 0, nread := s.nread + 1, tUs := s.tUs + 35,
              trace := s.trace ++ [.delayUs 35, .getLevel (nextAnswer s)],
              ph := if s.bitcnt + 1 = 40 then .endWait else .bitLow }

/-- `VALIDATE` (R157): the sum of the four bytes mod 256 against the fifth; on a match `DECODE` is next and
nothing else changes; on a mismatch `TAG` says so, the scratch is cleared and `PH` is `IDLE`. -/
def Obligations.ValidateResult : Prop :=
  ∀ s : State,
    ((s.frame.b0.toNat + s.frame.b1.toNat + s.frame.b2.toNat + s.frame.b3.toNat) % 256 = s.frame.b4.toNat →
      exec .validate s = .next { s with ph := .decode }) ∧
    ((s.frame.b0.toNat + s.frame.b1.toNat + s.frame.b2.toNat + s.frame.b3.toNat) % 256 ≠ s.frame.b4.toNat →
      exec .validate s = .next
        { s with tag := .checksumMismatch, frame := Frame.zero, bitcnt := 0, spin := 0, cause := .none, ph := .idle })

/-- `DECODE` (R170): `HUM`, `TSIGN`, `TMAG` from the four bytes, `TAG` says a Reading, the scratch cleared, `PH`
is `IDLE`, and nothing else changes. -/
def Obligations.DecodeResult : Prop :=
  ∀ s : State, ∃ t, exec .decodeReading s = .next t ∧
    t.hum.toNat = 256 * s.frame.b0.toNat + s.frame.b1.toNat ∧
    t.tsign.toNat = s.frame.b2.toNat / 128 ∧
    t.tmag.toNat = 256 * (s.frame.b2.toNat % 128) + s.frame.b3.toNat ∧
    t = { s with hum := t.hum, tsign := t.tsign, tmag := t.tmag, tag := .reading, frame := Frame.zero,
                 bitcnt := 0, spin := 0, cause := .none, ph := .idle }

/-- `RECOVER` (R118): the line restored, `TAG` takes `CAUSE`, the scratch cleared, `PH` is `IDLE`; it reads
nothing and cannot fail. -/
def Obligations.RecoverResult : Prop :=
  ∀ s : State, exec .recover s = .next
    { s with dir := .output, out := .high,
             trace := s.trace ++ [.setDirection .output, .setLevel .high],
             tag := s.cause, frame := Frame.zero, bitcnt := 0, spin := 0, cause := .none, ph := .idle }

/-! ### The driver calls -/

/-- `SetDirection d` (R41): always valid; in output mode the line is driven at `OUT`, in input mode not at all. -/
def Obligations.SetDirectionResult : Prop :=
  ∀ (s : State) (d : Direction), ∃ t, exec (.setDirection d) s = .next t ∧
    t = { s with dir := d, trace := s.trace ++ [.setDirection d] } ∧
    drivenLevel t = if d = .output then some s.out else none

/-- `SetLevel v` (R42): valid in output mode, where it drives the line at `v`; else outside the contract. -/
def Obligations.SetLevelResult : Prop :=
  ∀ (s : State) (v : Level),
    (s.dir = .output → ∃ t, exec (.setLevel v) s = .next t ∧
      t = { s with out := v, trace := s.trace ++ [.setLevel v] } ∧ drivenLevel t = some v) ∧
    (s.dir = .input → exec (.setLevel v) s = .fault .setLevelInInput)

/-- `GetLevel` (R43): valid in input mode; the answer stands in `TRACE`, `NREAD` is raised, one script element
is used (R48, R49), and no register of the engine changes. -/
def Obligations.GetLevelResult : Prop :=
  (∀ s : State, s.dir = .input → exec .getLevel s = .next
    { dropAnswer s with nread := s.nread + 1, trace := s.trace ++ [.getLevel (nextAnswer s)] }) ∧
  (∀ (s : State) (v : Level) (rest : List Level), s.script = v :: rest →
    nextAnswer s = v ∧ dropAnswer s = { s with script := rest }) ∧
  (∀ s : State, s.dir = .output → exec .getLevel s = .fault .getLevelInOutput)

/-- `DelayUs n` (R44): it appends its call, adds `n` to `T` and changes no other state. -/
def Obligations.DelayUsResult : Prop :=
  ∀ (s : State) (n : Nat), exec (.delayUs n) s = .next { s with tUs := s.tUs + n, trace := s.trace ++ [.delayUs n] }

/-! ### Who may write what (10_state.md section 10) -/

/-- The frame bytes and the bit count change only where 10_state.md section 10 lets them, and `BITCNT` only by one more or
to 0. -/
def Obligations.FrameWriters : Prop :=
  ∀ (i : Instr) (s t : State), exec i s = .next t →
    (writesFrame i = false → t.frame = s.frame ∧ t.bitcnt = s.bitcnt) ∧
    (t.bitcnt = s.bitcnt ∨ t.bitcnt = 0 ∨ i = .bitSample ∧ t.bitcnt = s.bitcnt + 1)

/-- `SPIN` and `CAUSE` change only where 10_state.md section 10 lets them. -/
def Obligations.SpinAndCauseWriters : Prop :=
  ∀ (i : Instr) (s t : State), exec i s = .next t →
    (writesSpin i = false → t.spin = s.spin) ∧ (writesCause i = false → t.cause = s.cause)

/-- `TAG`, `HUM`, `TSIGN`, `TMAG` change only where 10_state.md section 10 lets them. -/
def Obligations.OutcomeWriters : Prop :=
  ∀ (i : Instr) (s t : State), exec i s = .next t →
    (writesTag i = false → t.tag = s.tag) ∧
    (writesReading i = false → t.hum = s.hum ∧ t.tsign = s.tsign ∧ t.tmag = s.tmag)

/-- `DIR` and `OUT` change only where 10_state.md section 10 lets them; an operation that is no driver call and makes none
leaves both. A driver call from outside leaves `PH`. -/
def Obligations.LineAndPhaseWriters : Prop :=
  ∀ (i : Instr) (s t : State), exec i s = .next t →
    (writesDir i = false → t.dir = s.dir) ∧ (writesOut i = false → t.out = s.out) ∧
    (driverCall i = true → t.ph = s.ph)

/-- What no operation touches, and the history: the configuration and the port stay, `TRACE` is only extended,
and each read in the extension has used up one element of the script (R49, R59). -/
def Obligations.HistoryAndEnvironment : Prop :=
  ∀ (i : Instr) (s t : State), exec i s = .next t →
    t.cfg = s.cfg ∧ t.port = s.port ∧
    ∃ calls, t.trace = s.trace ++ calls ∧ t.nread = s.nread + traceReads calls ∧ t.tUs = s.tUs + traceUs calls ∧
      t.script = s.script.drop (traceReads calls)

/-- Every driver call an operation of the sequence or a host command makes has a code word, and its delays are
1000, 1 or 35 microseconds (R6, R75; 30_encoding.md section 3). -/
def Obligations.EngineDelays : Prop :=
  ∀ (i : Instr) (s t : State), driverCall i = false → exec i s = .next t →
    ∃ calls, t.trace = s.trace ++ calls ∧
      ∀ c ∈ calls, (callInstr c).wf = true ∧ (c = .delayUs (requestedUs c) → requestedUs c ∈ [1000, 1, 35])

/-- Whatever returns to `IDLE` has cleared the scratch (R29). -/
def Obligations.ReturnToIdleClears : Prop :=
  ∀ (i : Instr) (s t : State), exec i s = .next t → s.ph ≠ .idle → t.ph = .idle → CleanScratch t

/-! ### The frame, the checksum, the Reading -/

/-- After 40 shifts, from whatever the bytes held, the k-th bit received is `FRAME[39-k]` (R147, R148). -/
def Obligations.FrameHoldsSampledBits : Prop :=
  ∀ (f : Frame) (bits : List (BitVec 1)), bits.length = 40 →
    ∀ k, k < 40 → (frameWord (shiftBits f 0 bits)).getLsbD (39 - k) = decide (bits[k]? = some 1#1)

/-- The checksum property (R158): the fifth byte that is the sum mod 256 passes, the next one up fails, and
exactly one of the 256 passes. -/
def Obligations.ChecksumProperty : Prop :=
  ∀ b0 b1 b2 b3 : Byte,
    (∀ c : Byte, c.toNat = (b0.toNat + b1.toNat + b2.toNat + b3.toNat) % 256 →
      frameValid ⟨b0, b1, b2, b3, c⟩ = true) ∧
    (∀ c : Byte, c.toNat = (b0.toNat + b1.toNat + b2.toNat + b3.toNat + 1) % 256 →
      frameValid ⟨b0, b1, b2, b3, c⟩ = false) ∧
    (∃ c : Byte, frameValid ⟨b0, b1, b2, b3, c⟩ = true ∧
      ∀ c', frameValid ⟨b0, b1, b2, b3, c'⟩ = true → c' = c)

/-- A wrapping 8-bit accumulator gives the check (R156). -/
def Obligations.CheckIsWrappingSum : Prop :=
  ∀ b0 b1 b2 b3 : Byte, payloadCheck b0 b1 b2 b3 = b0 + b1 + b2 + b3

/-- Any change of exactly one byte of a valid frame is detected (44_checksum_validator.md, corner case c). -/
def Obligations.OneByteChangeDetected : Prop :=
  ∀ (f : Frame) (i : Nat) (v : Byte), i < 5 → frameValid f = true → v ≠ frameByte f i →
    frameValid (setFrameByte f i v) = false

/-- `Decode` in numbers (R165). -/
def Obligations.DecodeFormulas : Prop :=
  ∀ b0 b1 b2 b3 : Byte,
    (readingOf b0 b1 b2 b3).hum.toNat = 256 * b0.toNat + b1.toNat ∧
    (readingOf b0 b1 b2 b3).sign.toNat = b2.toNat / 128 ∧
    (readingOf b0 b1 b2 b3).mag.toNat = 256 * (b2.toNat % 128) + b3.toNat

/-- `Decode` is a bijection between four bytes and a Reading (45_decoder.md section 1): every Reading comes
from exactly one payload, the one the inverse formulas name. -/
def Obligations.DecodeIsBijection : Prop :=
  ∀ r : Reading, ∃ b0 b1 b2 b3 : Byte, readingOf b0 b1 b2 b3 = r ∧
    b0.toNat = r.hum.toNat / 256 ∧ b1.toNat = r.hum.toNat % 256 ∧
    b2.toNat = 128 * r.sign.toNat + r.mag.toNat / 256 ∧ b3.toNat = r.mag.toNat % 256 ∧
    ∀ c0 c1 c2 c3 : Byte, readingOf c0 c1 c2 c3 = r → c0 = b0 ∧ c1 = b1 ∧ c2 = b2 ∧ c3 = b3

/-- The signed temperature is the magnitude for sign 0 and its negative for sign 1 (45_decoder.md section 1): between
-32767 and +32767, and 0 with either sign only for magnitude 0. -/
def Obligations.SignedTemperatureRange : Prop :=
  ∀ (sign : BitVec 1) (mag : BitVec 15), -32767 ≤ tempTenths sign mag ∧ tempTenths sign mag ≤ 32767 ∧
    (tempTenths sign mag = 0 ↔ mag = 0) ∧ tempTenths 0#1 mag = (mag.toNat : Int) ∧
    tempTenths 1#1 mag = -(mag.toNat : Int)

/-- The Reading stands in `OUTCOME` bit for bit as the frame had it, under the tag 1, and with any other tag the
32 bits below are 0 (30_encoding.md section 3). -/
def Obligations.OutcomeIsFrameBits : Prop :=
  (∀ s t : State, exec .decodeReading s = .next t →
    (outcomeWord t).extractLsb' 0 32 = (frameWord s.frame).extractLsb' 8 32 ∧
    (outcomeWord t).extractLsb' 32 3 = 1#3) ∧
  (∀ s : State, EngineInv s → s.tag ≠ .reading → (outcomeWord s).extractLsb' 0 32 = 0#32)

/-- The words a host reads for the outcomes that carry no Reading: the code of R81 above 32 zero bits, as
95_test_vectors.md prints them. -/
def Obligations.FailureOutcomeWords : Prop :=
  ∀ s : State, NoReading s →
    (s.tag = .none → outcomeWord s = 0x000000000#35) ∧
    (s.tag = .ackTimeout → outcomeWord s = 0x200000000#35) ∧
    (s.tag = .ackTimeout2 → outcomeWord s = 0x300000000#35) ∧
    (s.tag = .checksumMismatch → outcomeWord s = 0x400000000#35) ∧
    (s.tag = .bitTimeout → outcomeWord s = 0x500000000#35) ∧
    (s.tag = .endTimeout → outcomeWord s = 0x600000000#35)

/-- No partial Reading: a state after a step whose `TAG` says a Reading either still holds the one it had, or
the step was `DECODE` of a frame that passed the check, and holds its decode (10_state.md section 5). -/
def Obligations.ReadingOnlyFromValidFrame : Prop :=
  ∀ s t : State, EngineInv s → step s = .next t → t.tag = .reading →
    (s.tag = .reading ∧ t.hum = s.hum ∧ t.tsign = s.tsign ∧ t.tmag = s.tmag) ∨
    (s.ph = .decode ∧ frameValid s.frame = true ∧
      (⟨t.hum, t.tsign, t.tmag⟩ : Reading) = readingOf s.frame.b0 s.frame.b1 s.frame.b2 s.frame.b3)

/-! ### Waits and whole cycles -/

/-- The ack-high wait is `WaitLevel` under `ACK_BUDGET` (41_handshake_sequencer.md sections 1, 4), in all its ends:
over in `BITLOW` after `j` wrong answers and the right one; `FAIL` with `ACK_TIMEOUT2` after `ACK_BUDGET` wrong ones; still
waiting after fewer. The answers may be scripted or free (assumption 1). -/
def Obligations.AckHighIsWaitLevel : Prop :=
  WaitSpec .ackHigh .high (fun c => .finite c.ackBudget) .bitLow .ackTimeout2

/-- The other four waits are `WaitLevel`, each under its own budget and with its own cause, those of a bit and of the end
under a finite budget or `INF` (41_handshake_sequencer.md sections 1, 3, 5, 42_bit_sample_detector.md sections 2, 3). -/
def Obligations.OtherWaitsAreWaitLevel : Prop :=
  WaitSpec .ackLow .low (fun c => .finite c.ackBudget) .ackHigh .ackTimeout ∧
  WaitSpec .bitLow .low (fun c => c.bitBudget) .bitHigh .bitTimeout ∧
  WaitSpec .bitHigh .high (fun c => c.bitBudget) .bitSample .bitTimeout ∧
  WaitSpec .endWait .low (fun c => c.endBudget) .validate .endTimeout

/-- The timeout property (95_test_vectors.md S6): if the line is never seen low within the budget, the call
returns `ACK_TIMEOUT` with the line output-high, after exactly `ACK_BUDGET` reads, with the printed trace. -/
def Obligations.AckTimeoutProperty : Prop :=
  ∀ (s : State) (rest : List Level), Launch s → quiet s = true →
    s.script = List.replicate s.cfg.ackBudget .high ++ rest →
    ∃ t, acquireCall (s.cfg.ackBudget + 2) s = .next t ∧ t.ph = .idle ∧ result t = some .ackTimeout ∧
      LineIdle t ∧ NoReading t ∧ t.script = rest ∧ t.nread = s.nread + s.cfg.ackBudget ∧
      t.tUs = s.tUs + 1000 + s.cfg.ackBudget ∧
      t.trace = s.trace ++ [.setLevel .low, .delayUs 1000, .setLevel .high, .setDirection .input] ++
        (List.replicate s.cfg.ackBudget [.getLevel .high, .delayUs 1]).flatten ++
        [.setDirection .output, .setLevel .high]

/-- End to end (42_bit_sample_detector.md section 5): a launch that meets a script of R137's shape, its waits
within their budgets, returns the outcome of the frame its 40 samples carry, and no more is read. -/
def Obligations.CycleDeliversFrame : Prop :=
  ∀ (s : State) (a b e : Nat) (cells : List BitCell) (rest : List Level), Launch s → quiet s = true →
    cells.length = 40 → a < s.cfg.ackBudget → b < s.cfg.ackBudget → admitsMisses s.cfg.endBudget e = true →
    (cells.all fun k => admitsMisses s.cfg.bitBudget k.c && admitsMisses s.cfg.bitBudget k.d) = true →
    s.script = cycleScript a b cells e ++ rest →
    ∃ t, acquireCall (126 + a + b + cellMisses cells + e) s = .next t ∧ t.ph = .idle ∧
      result t = some (outcomeOfFrame (frameOfCells cells)) ∧ LineIdle t ∧ CleanScratch t ∧ t.script = rest ∧
      t.nread = s.nread + 123 + a + b + cellMisses cells + e ∧
      t.tUs = s.tUs + 2400 + a + b + cellMisses cells + e

/-- Each step of a hardened cycle brings it nearer its end (70_reset_and_hazards.md section 3). -/
def Obligations.HardenedStepsDecrease : Prop :=
  ∀ s : State, EngineInv s → hardened s.cfg = true → quiet s = true → s.ph ≠ .idle →
    ∃ t, step s = .next t ∧ stepsLeft t < stepsLeft s

/-- Termination (R240, R104): with a hardened configuration the call returns within the bound for every script,
with an outcome, the line idle and the scratch clean. -/
def Obligations.HardenedCycleEnds : Prop :=
  ∀ (s : State) (bound : Nat), Launch s → quiet s = true → cycleStepBound s.cfg = some bound →
    ∃ t, acquireCall bound s = .next t ∧ t.ph = .idle ∧ result t ≠ none ∧ LineIdle t ∧ CleanScratch t

/-- The call of a hardened cycle makes at most `2*ACK_BUDGET + 40*(2*BIT_BUDGET + 1) + END_BUDGET` line reads
(40_acquire_host_interface.md section 4). -/
def Obligations.HardenedReadsBounded : Prop :=
  ∀ (s t : State) (fuel b e : Nat), Launch s → quiet s = true → s.cfg.bitBudget = .finite b →
    s.cfg.endBudget = .finite e → acquireCall fuel s = .next t →
    t.nread ≤ s.nread + (2 * s.cfg.ackBudget + 40 * (2 * b + 1) + e)

/-- The hang of the reference-like configuration (R240): with `INF` a wait that is never answered runs on for
any number of steps, each a read and a delay, and stays where it is. -/
def Obligations.UnboundedWaitHangs : Prop :=
  ∀ (n : Nat) (s : State) (v : Level), s.dir = .input → s.port = [] → s.script = List.replicate n v →
    (s.ph = .bitLow ∧ s.cfg.bitBudget = .inf ∧ v = .high ∨ s.ph = .bitHigh ∧ s.cfg.bitBudget = .inf ∧ v = .low ∨
      s.ph = .endWait ∧ s.cfg.endBudget = .inf ∧ v = .high) →
    ∃ t, Host.Core.run Sys2Proof.core n s = .next t ∧ t.ph = s.ph ∧ t.spin = s.spin ∧ t.dir = .input ∧
      t.nread = s.nread + n ∧ t.tUs = s.tUs + n

/-- Idempotence (10_state.md section 7): cycles launched from two idle states, with the same configuration and
environment, agree in everything but the history before them, whatever outcome stood before; and with no
command presented they append the same calls. -/
def Obligations.CycleIdempotent : Prop :=
  ∀ (s₁ s₂ t₁ t₂ : State) (k : Nat), Launch s₁ → Launch s₂ → s₁.cfg = s₂.cfg → s₁.script = s₂.script →
    s₁.oracle = s₂.oracle → s₁.port = s₂.port → exec .acquire s₁ = .next t₁ → exec .acquire s₂ = .next t₂ →
    eraseOutcome (Host.Core.run Sys2Proof.core k t₁) = eraseOutcome (Host.Core.run Sys2Proof.core k t₂) ∧
    (quiet s₁ = true → ∀ u₁ u₂, Host.Core.run Sys2Proof.core k t₁ = .next u₁ →
      Host.Core.run Sys2Proof.core k t₂ = .next u₂ →
      ∃ calls, u₁.trace = s₁.trace ++ calls ∧ u₂.trace = s₂.trace ++ calls)
end

