-- ==== Sys2Proof/Laws/State.lean ====
section
/-! SUPPORT. What each named update of State leaves in each field: one simp lemma a field, grouped by update. -/

namespace Sys2Proof.Machine

@[simp] theorem record_fields (c : DrvCall) (s : State) :
    (record c s).frame = s.frame ∧ (record c s).ph = s.ph ∧ (record c s).bitcnt = s.bitcnt ∧
      (record c s).spin = s.spin ∧ (record c s).cause = s.cause ∧ (record c s).tag = s.tag ∧
      (record c s).hum = s.hum ∧ (record c s).tsign = s.tsign ∧ (record c s).tmag = s.tmag ∧
      (record c s).dir = s.dir ∧ (record c s).out = s.out ∧ (record c s).trace = s.trace ++ [c] ∧
      (record c s).tUs = s.tUs ∧ (record c s).nread = s.nread ∧ (record c s).cfg = s.cfg ∧
      (record c s).script = s.script ∧ (record c s).oracle = s.oracle ∧ (record c s).port = s.port :=
  ⟨rfl, rfl, rfl, rfl, rfl, rfl, rfl, rfl, rfl, rfl, rfl, rfl, rfl, rfl, rfl, rfl, rfl, rfl⟩

@[simp] theorem setDirection_fields (d : Direction) (s : State) :
    (setDirection d s).frame = s.frame ∧ (setDirection d s).ph = s.ph ∧ (setDirection d s).bitcnt = s.bitcnt ∧
      (setDirection d s).spin = s.spin ∧ (setDirection d s).cause = s.cause ∧ (setDirection d s).tag = s.tag ∧
      (setDirection d s).hum = s.hum ∧ (setDirection d s).tsign = s.tsign ∧ (setDirection d s).tmag = s.tmag ∧
      (setDirection d s).dir = d ∧ (setDirection d s).out = s.out ∧
      (setDirection d s).trace = s.trace ++ [.setDirection d] ∧ (setDirection d s).tUs = s.tUs ∧
      (setDirection d s).nread = s.nread ∧ (setDirection d s).cfg = s.cfg ∧ (setDirection d s).script = s.script ∧
      (setDirection d s).oracle = s.oracle ∧ (setDirection d s).port = s.port :=
  ⟨rfl, rfl, rfl, rfl, rfl, rfl, rfl, rfl, rfl, rfl, rfl, rfl, rfl, rfl, rfl, rfl, rfl, rfl⟩

@[simp] theorem delayUs_fields (n : Nat) (s : State) :
    (delayUs n s).frame = s.frame ∧ (delayUs n s).ph = s.ph ∧ (delayUs n s).bitcnt = s.bitcnt ∧
      (delayUs n s).spin = s.spin ∧ (delayUs n s).cause = s.cause ∧ (delayUs n s).tag = s.tag ∧
      (delayUs n s).hum = s.hum ∧ (delayUs n s).tsign = s.tsign ∧ (delayUs n s).tmag = s.tmag ∧
      (delayUs n s).dir = s.dir ∧ (delayUs n s).out = s.out ∧ (delayUs n s).trace = s.trace ++ [.delayUs n] ∧
      (delayUs n s).tUs = s.tUs + n ∧ (delayUs n s).nread = s.nread ∧ (delayUs n s).cfg = s.cfg ∧
      (delayUs n s).script = s.script ∧ (delayUs n s).oracle = s.oracle ∧ (delayUs n s).port = s.port :=
  ⟨rfl, rfl, rfl, rfl, rfl, rfl, rfl, rfl, rfl, rfl, rfl, rfl, rfl, rfl, rfl, rfl, rfl, rfl⟩

@[simp] theorem failWith_fields (c : Tag) (s : State) :
    (failWith c s).frame = s.frame ∧ (failWith c s).ph = .fail ∧ (failWith c s).bitcnt = s.bitcnt ∧
      (failWith c s).spin = s.spin ∧ (failWith c s).cause = c ∧ (failWith c s).tag = s.tag ∧
      (failWith c s).hum = s.hum ∧ (failWith c s).tsign = s.tsign ∧ (failWith c s).tmag = s.tmag ∧
      (failWith c s).dir = s.dir ∧ (failWith c s).out = s.out ∧ (failWith c s).trace = s.trace ∧
      (failWith c s).tUs = s.tUs ∧ (failWith c s).nread = s.nread ∧ (failWith c s).cfg = s.cfg ∧
      (failWith c s).script = s.script ∧ (failWith c s).oracle = s.oracle ∧ (failWith c s).port = s.port :=
  ⟨rfl, rfl, rfl, rfl, rfl, rfl, rfl, rfl, rfl, rfl, rfl, rfl, rfl, rfl, rfl, rfl, rfl, rfl⟩

@[simp] theorem leaveWait_fields (p : Phase) (s : State) :
    (leaveWait p s).frame = s.frame ∧ (leaveWait p s).ph = p ∧ (leaveWait p s).bitcnt = s.bitcnt ∧
      (leaveWait p s).spin = 0 ∧ (leaveWait p s).cause = s.cause ∧ (leaveWait p s).tag = s.tag ∧
      (leaveWait p s).hum = s.hum ∧ (leaveWait p s).tsign = s.tsign ∧ (leaveWait p s).tmag = s.tmag ∧
      (leaveWait p s).dir = s.dir ∧ (leaveWait p s).out = s.out ∧ (leaveWait p s).trace = s.trace ∧
      (leaveWait p s).tUs = s.tUs ∧ (leaveWait p s).nread = s.nread ∧ (leaveWait p s).cfg = s.cfg ∧
      (leaveWait p s).script = s.script ∧ (leaveWait p s).oracle = s.oracle ∧ (leaveWait p s).port = s.port :=
  ⟨rfl, rfl, rfl, rfl, rfl, rfl, rfl, rfl, rfl, rfl, rfl, rfl, rfl, rfl, rfl, rfl, rfl, rfl⟩

@[simp] theorem clearScratch_fields (s : State) :
    (clearScratch s).frame = Frame.zero ∧ (clearScratch s).ph = s.ph ∧ (clearScratch s).bitcnt = 0 ∧
      (clearScratch s).spin = 0 ∧ (clearScratch s).cause = .none ∧ (clearScratch s).tag = s.tag ∧
      (clearScratch s).hum = s.hum ∧ (clearScratch s).tsign = s.tsign ∧ (clearScratch s).tmag = s.tmag ∧
      (clearScratch s).dir = s.dir ∧ (clearScratch s).out = s.out ∧ (clearScratch s).trace = s.trace ∧
      (clearScratch s).tUs = s.tUs ∧ (clearScratch s).nread = s.nread ∧ (clearScratch s).cfg = s.cfg ∧
      (clearScratch s).script = s.script ∧ (clearScratch s).oracle = s.oracle ∧ (clearScratch s).port = s.port :=
  ⟨rfl, rfl, rfl, rfl, rfl, rfl, rfl, rfl, rfl, rfl, rfl, rfl, rfl, rfl, rfl, rfl, rfl, rfl⟩

@[simp] theorem toIdle_fields (s : State) :
    (toIdle s).frame = Frame.zero ∧ (toIdle s).ph = .idle ∧ (toIdle s).bitcnt = 0 ∧ (toIdle s).spin = 0 ∧
      (toIdle s).cause = .none ∧ (toIdle s).tag = s.tag ∧ (toIdle s).hum = s.hum ∧ (toIdle s).tsign = s.tsign ∧
      (toIdle s).tmag = s.tmag ∧ (toIdle s).dir = s.dir ∧ (toIdle s).out = s.out ∧ (toIdle s).trace = s.trace ∧
      (toIdle s).tUs = s.tUs ∧ (toIdle s).nread = s.nread ∧ (toIdle s).cfg = s.cfg ∧ (toIdle s).script = s.script ∧
      (toIdle s).oracle = s.oracle ∧ (toIdle s).port = s.port :=
  ⟨rfl, rfl, rfl, rfl, rfl, rfl, rfl, rfl, rfl, rfl, rfl, rfl, rfl, rfl, rfl, rfl, rfl, rfl⟩

@[simp] theorem clearOutcome_fields (s : State) :
    (clearOutcome s).frame = s.frame ∧ (clearOutcome s).ph = s.ph ∧ (clearOutcome s).bitcnt = s.bitcnt ∧
      (clearOutcome s).spin = s.spin ∧ (clearOutcome s).cause = s.cause ∧ (clearOutcome s).tag = .none ∧
      (clearOutcome s).hum = 0 ∧ (clearOutcome s).tsign = 0 ∧ (clearOutcome s).tmag = 0 ∧
      (clearOutcome s).dir = s.dir ∧ (clearOutcome s).out = s.out ∧ (clearOutcome s).trace = s.trace ∧
      (clearOutcome s).tUs = s.tUs ∧ (clearOutcome s).nread = s.nread ∧ (clearOutcome s).cfg = s.cfg ∧
      (clearOutcome s).script = s.script ∧ (clearOutcome s).oracle = s.oracle ∧ (clearOutcome s).port = s.port :=
  ⟨rfl, rfl, rfl, rfl, rfl, rfl, rfl, rfl, rfl, rfl, rfl, rfl, rfl, rfl, rfl, rfl, rfl, rfl⟩

@[simp] theorem shiftIn_fields (b : BitVec 1) (s : State) :
    (shiftIn b s).frame = shiftFrame s.frame s.bitcnt b ∧ (shiftIn b s).ph = s.ph ∧
      (shiftIn b s).bitcnt = s.bitcnt + 1 ∧ (shiftIn b s).spin = s.spin ∧ (shiftIn b s).cause = s.cause ∧
      (shiftIn b s).tag = s.tag ∧ (shiftIn b s).hum = s.hum ∧ (shiftIn b s).tsign = s.tsign ∧
      (shiftIn b s).tmag = s.tmag ∧ (shiftIn b s).dir = s.dir ∧ (shiftIn b s).out = s.out ∧
      (shiftIn b s).trace = s.trace ∧ (shiftIn b s).tUs = s.tUs ∧ (shiftIn b s).nread = s.nread ∧
      (shiftIn b s).cfg = s.cfg ∧ (shiftIn b s).script = s.script ∧ (shiftIn b s).oracle = s.oracle ∧
      (shiftIn b s).port = s.port :=
  ⟨rfl, rfl, rfl, rfl, rfl, rfl, rfl, rfl, rfl, rfl, rfl, rfl, rfl, rfl, rfl, rfl, rfl, rfl⟩

@[simp] theorem emitReading_fields (r : Reading) (s : State) :
    (emitReading r s).frame = s.frame ∧ (emitReading r s).ph = s.ph ∧ (emitReading r s).bitcnt = s.bitcnt ∧
      (emitReading r s).spin = s.spin ∧ (emitReading r s).cause = s.cause ∧ (emitReading r s).tag = .reading ∧
      (emitReading r s).hum = r.hum ∧ (emitReading r s).tsign = r.sign ∧ (emitReading r s).tmag = r.mag ∧
      (emitReading r s).dir = s.dir ∧ (emitReading r s).out = s.out ∧ (emitReading r s).trace = s.trace ∧
      (emitReading r s).tUs = s.tUs ∧ (emitReading r s).nread = s.nread ∧ (emitReading r s).cfg = s.cfg ∧
      (emitReading r s).script = s.script ∧ (emitReading r s).oracle = s.oracle ∧ (emitReading r s).port = s.port :=
  ⟨rfl, rfl, rfl, rfl, rfl, rfl, rfl, rfl, rfl, rfl, rfl, rfl, rfl, rfl, rfl, rfl, rfl, rfl⟩

@[simp] theorem resetEvent_fields (s : State) :
    (resetEvent s).frame = Frame.zero ∧ (resetEvent s).ph = .idle ∧ (resetEvent s).bitcnt = 0 ∧
      (resetEvent s).spin = 0 ∧ (resetEvent s).cause = .none ∧ (resetEvent s).tag = .none ∧
      (resetEvent s).hum = 0 ∧ (resetEvent s).tsign = 0 ∧ (resetEvent s).tmag = 0 ∧ (resetEvent s).dir = .output ∧
      (resetEvent s).out = .high ∧ (resetEvent s).trace = [] ∧ (resetEvent s).tUs = 0 ∧ (resetEvent s).nread = 0 ∧
      (resetEvent s).cfg = s.cfg ∧ (resetEvent s).script = s.script ∧ (resetEvent s).oracle = s.oracle ∧
      (resetEvent s).port = s.port :=
  ⟨rfl, rfl, rfl, rfl, rfl, rfl, rfl, rfl, rfl, rfl, rfl, rfl, rfl, rfl, rfl, rfl, rfl, rfl⟩

@[simp] theorem eraseGhosts_fields (s : State) :
    (eraseGhosts s).frame = s.frame ∧ (eraseGhosts s).ph = s.ph ∧ (eraseGhosts s).bitcnt = s.bitcnt ∧
      (eraseGhosts s).spin = s.spin ∧ (eraseGhosts s).cause = s.cause ∧ (eraseGhosts s).tag = s.tag ∧
      (eraseGhosts s).hum = s.hum ∧ (eraseGhosts s).tsign = s.tsign ∧ (eraseGhosts s).tmag = s.tmag ∧
      (eraseGhosts s).dir = s.dir ∧ (eraseGhosts s).out = s.out ∧ (eraseGhosts s).trace = [] ∧
      (eraseGhosts s).tUs = 0 ∧ (eraseGhosts s).nread = 0 ∧ (eraseGhosts s).cfg = s.cfg ∧
      (eraseGhosts s).script = s.script ∧ (eraseGhosts s).oracle = s.oracle ∧ (eraseGhosts s).port = s.port :=
  ⟨rfl, rfl, rfl, rfl, rfl, rfl, rfl, rfl, rfl, rfl, rfl, rfl, rfl, rfl, rfl, rfl, rfl, rfl⟩

end Sys2Proof.Machine
end

