-- ==== Sys2Proof/Laws/Ops.lean ====
section
/-! SUPPORT. What each shared operation can do: the lemmas that later proofs cite instead of unfolding
the operation. -/

namespace Sys2Proof.Machine

variable {α β : Type}

/-! ### Sequencing -/

@[simp] theorem andThen_next (a : α) (k : α → Host.Outcome β Fault Refusal) : andThen (.next a) k = k a := rfl

@[simp] theorem andThen_fault (f : Fault) (k : α → Host.Outcome β Fault Refusal) :
    andThen (.fault f) k = .fault f := rfl

@[simp] theorem andThen_refused (r : Refusal) (k : α → Host.Outcome β Fault Refusal) :
    andThen (.refused r) k = .refused r := rfl

/-- A sequence answers a next value exactly if both parts do. -/
theorem andThen_eq_next_iff {o : Host.Outcome α Fault Refusal} {k : α → Host.Outcome β Fault Refusal} {b : β} :
    andThen o k = .next b ↔ ∃ a, o = .next a ∧ k a = .next b := by
  cases o <;> simp

/-- A sequence faults exactly if its first part does, or its second after it. -/
theorem andThen_eq_fault_iff {o : Host.Outcome α Fault Refusal} {k : α → Host.Outcome β Fault Refusal} {f : Fault} :
    andThen o k = .fault f ↔ o = .fault f ∨ ∃ a, o = .next a ∧ k a = .fault f := by
  cases o <;> simp

/-! ### The driver calls -/

/-- `SetLevel` in output mode. -/
theorem setLevel_of_output {s : State} (v : Level) (h : s.dir = .output) :
    setLevel v s = .next (record (.setLevel v) { s with out := v }) := by
  simp [setLevel, h]

/-- `SetLevel` in input mode. -/
theorem setLevel_of_input {s : State} (v : Level) (h : s.dir = .input) :
    setLevel v s = .fault .setLevelInInput := by
  simp [setLevel, h]

/-- `GetLevel` in input mode. -/
theorem getLevel_of_input {s : State} (h : s.dir = .input) : getLevel s = .next (nextAnswer s, afterRead s) := by
  simp [getLevel, h]

/-- `GetLevel` in output mode. -/
theorem getLevel_of_output {s : State} (h : s.dir = .output) : getLevel s = .fault .getLevelInOutput := by
  simp [getLevel, h]

/-- All that a `SetLevel` which answers can have done. -/
theorem setLevel_eq_next_iff {v : Level} {s t : State} :
    setLevel v s = .next t ↔ s.dir = .output ∧ t = record (.setLevel v) { s with out := v } := by
  cases h : s.dir <;> simp [setLevel, h, eq_comm]

/-- All that a `GetLevel` which answers can have done. -/
theorem getLevel_eq_next_iff {s : State} {r : Level × State} :
    getLevel s = .next r ↔ s.dir = .input ∧ r = (nextAnswer s, afterRead s) := by
  cases h : s.dir <;> simp [getLevel, h, eq_comm]

/-- A scripted answer is the head of the script. -/
@[simp] theorem nextAnswer_cons (s : State) (v : Level) (rest : List Level) :
    nextAnswer { s with script := v :: rest } = v := rfl

/-- A delay does not change what is answered next: the model has no clock (R44). -/
@[simp] theorem nextAnswer_delayUs (n : Nat) (s : State) : nextAnswer (delayUs n s) = nextAnswer s := rfl

/-- A read touches the ghosts, the script and the count of free answers, nothing else. -/
@[simp] theorem afterRead_fields (s : State) :
    (afterRead s).frame = s.frame ∧ (afterRead s).ph = s.ph ∧ (afterRead s).bitcnt = s.bitcnt ∧
      (afterRead s).spin = s.spin ∧ (afterRead s).cause = s.cause ∧ (afterRead s).tag = s.tag ∧
      (afterRead s).hum = s.hum ∧ (afterRead s).tsign = s.tsign ∧ (afterRead s).tmag = s.tmag ∧
      (afterRead s).dir = s.dir ∧ (afterRead s).out = s.out ∧
      (afterRead s).trace = s.trace ++ [.getLevel (nextAnswer s)] ∧ (afterRead s).tUs = s.tUs ∧
      (afterRead s).nread = s.nread + 1 ∧ (afterRead s).cfg = s.cfg ∧ (afterRead s).script = s.script.tail ∧
      (afterRead s).port = s.port := by
  cases h : s.script <;> simp [afterRead, dropAnswer, record, h]

/-- A free answer is drawn exactly when the script is used up. -/
theorem afterRead_oracle (s : State) :
    (afterRead s).oracle = if s.script = [] then s.oracle + 1 else s.oracle := by
  cases h : s.script <;> simp [afterRead, dropAnswer, record, h]

/-! ### Leaving the cycle -/

/-- Restoring the line never faults: the direction is set first (R46). -/
theorem restoreLine_eq (s : State) :
    restoreLine s = .next (record (.setLevel .high) { setDirection .output s with out := .high }) :=
  setLevel_of_output .high rfl

/-- What a failure's report leaves (R118). -/
theorem reportFailure_eq (s : State) :
    reportFailure s =
      .next (toIdle { record (.setLevel .high) { setDirection .output s with out := .high } with tag := s.cause }) := by
  simp [reportFailure, restoreLine_eq]

/-! ### The poll -/

/-- A miss writes `SPIN`, and on its last allowed one `CAUSE` and `PH`; nothing else. -/
@[simp] theorem countMiss_fields (b : Budget) (c : Tag) (s : State) :
    (countMiss b c s).frame = s.frame ∧ (countMiss b c s).bitcnt = s.bitcnt ∧ (countMiss b c s).tag = s.tag ∧
      (countMiss b c s).hum = s.hum ∧ (countMiss b c s).tsign = s.tsign ∧ (countMiss b c s).tmag = s.tmag ∧
      (countMiss b c s).dir = s.dir ∧ (countMiss b c s).out = s.out ∧ (countMiss b c s).trace = s.trace ∧
      (countMiss b c s).tUs = s.tUs ∧ (countMiss b c s).nread = s.nread ∧ (countMiss b c s).cfg = s.cfg ∧
      (countMiss b c s).script = s.script ∧ (countMiss b c s).oracle = s.oracle ∧
      (countMiss b c s).port = s.port := by
  cases b with
  | inf => simp [countMiss]
  | finite n => simp only [countMiss]; split <;> simp

/-- The three things a miss can do to the wait (R110, R18). -/
theorem countMiss_cases (b : Budget) (c : Tag) (s : State) :
    (b = .inf ∧ countMiss b c s = s) ∨
      (b = .finite (s.spin + 1) ∧ countMiss b c s = failWith c { s with spin := s.spin + 1 }) ∨
      (∃ n, b = .finite n ∧ s.spin + 1 ≠ n ∧ countMiss b c s = { s with spin := s.spin + 1 }) := by
  cases b with
  | inf => exact .inl ⟨rfl, rfl⟩
  | finite n =>
    by_cases h : s.spin + 1 = n
    · exact .inr (.inl ⟨by rw [h], by simp [countMiss, h]⟩)
    · exact .inr (.inr ⟨n, rfl, h, by simp [countMiss, h]⟩)

/-- All that a poll which answers can have done: the wait is over, or one more miss is counted. -/
theorem pollThen_cases {target : Level} {b : Budget} {c : Tag} {k : State → Host.Outcome State Fault Refusal}
    {s t : State} (h : pollThen target b c k s = .next t) :
    s.dir = .input ∧
      ((nextAnswer s = target ∧ k (afterRead s) = .next t) ∨
        (nextAnswer s ≠ target ∧ t = countMiss b c (delayUs pollUs (afterRead s)))) := by
  obtain ⟨r, hr, ht⟩ := andThen_eq_next_iff.1 h
  obtain ⟨hd, rfl⟩ := getLevel_eq_next_iff.1 hr
  refine ⟨hd, ?_⟩
  by_cases ha : nextAnswer s = target
  · exact .inl ⟨ha, by simpa [ha] using ht⟩
  · exact .inr ⟨ha, by simpa [ha, eq_comm] using ht⟩

/-- The poll of a plain wait (R110). -/
theorem poll_cases {target : Level} {b : Budget} {p : Phase} {c : Tag} {s t : State}
    (h : poll target b p c s = .next t) :
    s.dir = .input ∧
      ((nextAnswer s = target ∧ t = leaveWait p (afterRead s)) ∨
        (nextAnswer s ≠ target ∧ t = countMiss b c (delayUs pollUs (afterRead s)))) := by
  obtain ⟨hd, ⟨ha, ht⟩ | hm⟩ := pollThen_cases h
  · exact ⟨hd, .inl ⟨ha, by simpa [eq_comm] using ht⟩⟩
  · exact ⟨hd, .inr hm⟩

/-- In input mode a poll that reads the awaited level does what ends the wait. -/
theorem pollThen_hit {target : Level} {b : Budget} {c : Tag} {k : State → Host.Outcome State Fault Refusal}
    {s : State} (hd : s.dir = .input) (ha : nextAnswer s = target) :
    pollThen target b c k s = k (afterRead s) := by
  simp [pollThen, getLevel_of_input hd, ha]

/-- In input mode a poll that reads the other level counts a miss. -/
theorem pollThen_miss {target : Level} {b : Budget} {c : Tag} {k : State → Host.Outcome State Fault Refusal}
    {s : State} (hd : s.dir = .input) (ha : nextAnswer s ≠ target) :
    pollThen target b c k s = .next (countMiss b c (delayUs pollUs (afterRead s))) := by
  simp [pollThen, getLevel_of_input hd, ha]

/-- A fresh wait is within any budget R7 admits. -/
theorem spinWithin_zero {b : Budget} (h : budgetOk b = true) : spinWithin b 0 = true := by
  cases b with
  | inf => rfl
  | finite n => simp only [budgetOk, decide_eq_true_eq] at h; simp only [spinWithin, decide_eq_true_eq]; omega

/-- A miss that does not exhaust the budget leaves the count within it. -/
theorem spinWithin_succ {n k : Nat} (h : spinWithin (.finite n) k = true) (hn : k + 1 ≠ n) :
    spinWithin (.finite n) (k + 1) = true := by
  simp only [spinWithin, decide_eq_true_eq] at h ⊢; omega

/-- A wait under `INF` never times out (R110 d). -/
theorem waitLevel_inf_ne_timeout (target : Level) (l : List Level) : waitLevel target .inf l ≠ .timeout := by
  induction l with
  | nil => simp [waitLevel]
  | cons v rest ih =>
    simp only [waitLevel]
    split
    · simp
    · cases h : waitLevel target .inf rest <;> simp_all [afterMiss]

/-- The next answers are as many as are asked for. -/
@[simp] theorem length_nextAnswers (n : Nat) (s : State) : (nextAnswers n s).length = n := by
  induction n generalizing s with
  | zero => rfl
  | succ n ih => simp [nextAnswers, ih]

/-! ### The frame bytes -/

/-- A byte written is read back. -/
theorem frameByte_setFrameByte_self (f : Frame) {i : Nat} (v : Byte) (h : i < 5) :
    frameByte (setFrameByte f i v) i = v := by
  rcases i with _ | _ | _ | _ | _ | i
  all_goals first | rfl | omega

/-- The other bytes stay. -/
theorem frameByte_setFrameByte_ne (f : Frame) {i j : Nat} (v : Byte) (h : i ≠ j) :
    frameByte (setFrameByte f i v) j = frameByte f j := by
  rcases i with _ | _ | _ | _ | _ | i <;> rcases j with _ | _ | _ | _ | _ | j
  all_goals first | rfl | omega

/-- A frame is its five bytes. -/
theorem frame_ext_bytes {f g : Frame} (h : ∀ i, i < 5 → frameByte f i = frameByte g i) : f = g := by
  have h0 : f.b0 = g.b0 := h 0 (by omega)
  have h1 : f.b1 = g.b1 := h 1 (by omega)
  have h2 : f.b2 = g.b2 := h 2 (by omega)
  have h3 : f.b3 = g.b3 := h 3 (by omega)
  have h4 : f.b4 = g.b4 := h 4 (by omega)
  cases f; cases g; simp_all

/-! ### Code words -/

/-- The operation field of an assembled driver word. -/
@[simp] theorem drvOp_drvWord (op : BitVec 2) (arg : BitVec 10) : drvOp (drvWord op arg) = op := by
  apply BitVec.eq_of_toNat_eq
  have := arg.isLt
  have := op.isLt
  simp only [drvOp, drvWord, BitVec.extractLsb'_toNat, BitVec.toNat_append, Nat.shiftRight_eq_div_pow]
  rw [← Nat.shiftLeft_add_eq_or_of_lt arg.isLt, Nat.shiftLeft_eq]
  omega

/-- The argument field of an assembled driver word. -/
@[simp] theorem drvArg_drvWord (op : BitVec 2) (arg : BitVec 10) : drvArg (drvWord op arg) = arg := by
  apply BitVec.eq_of_toNat_eq
  have := arg.isLt
  have := op.isLt
  simp only [drvArg, drvWord, BitVec.extractLsb'_toNat, BitVec.toNat_append, Nat.shiftRight_eq_div_pow]
  rw [← Nat.shiftLeft_add_eq_or_of_lt arg.isLt, Nat.shiftLeft_eq]
  omega

/-- A driver word is put together from its fields. -/
theorem drvWord_fields (w : BitVec 12) : drvWord (drvOp w) (drvArg w) = w := by
  apply BitVec.eq_of_toNat_eq
  have := w.isLt
  simp only [drvOp, drvArg, drvWord, BitVec.toNat_append]
  rw [← Nat.shiftLeft_add_eq_or_of_lt (BitVec.isLt _), Nat.shiftLeft_eq]
  simp only [BitVec.extractLsb'_toNat, Nat.shiftRight_eq_div_pow]
  omega

/-- A HOSTCMD word is one of four. -/
theorem hostWord_cases (c : BitVec 2) : c = 0#2 ∨ c = 1#2 ∨ c = 2#2 ∨ c = 3#2 := by
  revert c; decide

/-! ### What a step runs -/

/-- With nothing at the port the phase register selects. -/
theorem fetch_of_nil {s : State} (h : s.port = []) : fetch s = (some (.phase (phaseCode s.ph)), s) := by
  simp [fetch, h]

/-- With no command presented the phase register selects, and the entry is taken. -/
theorem fetch_of_noCommand {s : State} {rest : List PortWord} (h : s.port = .host 0#2 :: rest) :
    fetch s = (some (.phase (phaseCode s.ph)), { s with port := rest }) := by
  simp [fetch, h]

/-- A quiet port lets the phase register select, and stays quiet. -/
theorem fetch_of_quiet {s : State} (h : quiet s = true) :
    fetch s = (some (.phase (phaseCode s.ph)), { s with port := s.port.tail }) ∧
      quiet { s with port := s.port.tail } = true := by
  obtain ⟨fr, ph, bc, sp, ca, tg, hu, ts, tm, di, ou, tr, tu, nr, cf, sc, orc, port⟩ := s
  rcases port with _ | ⟨w, rest⟩
  · exact ⟨rfl, h⟩
  · cases w with
    | host c =>
      simp only [quiet, List.all_cons, noCommandWord, Bool.and_eq_true, decide_eq_true_eq] at h
      obtain ⟨rfl, hr⟩ := h
      exact ⟨rfl, hr⟩
    | drv w => simp [quiet, noCommandWord] at h
    | reset => simp [quiet, noCommandWord] at h

/-- The code of a phase is read back as the phase. -/
@[simp] theorem phaseOfCode_phaseCode (p : Phase) : phaseOfCode (phaseCode p) = some p := by
  cases p <;> rfl

/-- The return to `IDLE` leaves the scratch clean (R29). -/
theorem toIdle_clean (s : State) : CleanScratch (toIdle s) := ⟨rfl, rfl, rfl, rfl⟩

end Sys2Proof.Machine
end

