-- ==== Sys2Proof/Laws/Meanings.lean ====
section
/-! SUPPORT. One inversion lemma for each meaning that can stop or branch: what holds whenever it answers a
next state. Proofs over all operations split on these instead of unfolding `exec`. -/

namespace Sys2Proof.Machine

/-- `ACQUIRE` answers only while idle (R102). -/
theorem execAcquire_cases {s t : State} (h : execAcquire s = .next t) :
    s.ph = .idle ∧ t = { clearScratch (clearOutcome s) with ph := .start } := by
  unfold execAcquire at h
  split at h
  · next hp => cases h; exact ⟨hp, rfl⟩
  · cases h

/-- `ABORT` does nothing while idle and clears everything while busy (R103). -/
theorem execAbort_cases {s t : State} (h : execAbort s = .next t) :
    (s.ph = .idle ∧ t = s) ∨ (s.ph ≠ .idle ∧
      t = toIdle (clearOutcome (record (.setLevel .high) { setDirection .output s with out := .high }))) := by
  unfold execAbort at h
  split at h
  · next hp => cases h; exact .inl ⟨hp, rfl⟩
  · next hp => exact .inr ⟨hp, by simpa [restoreLine_eq, eq_comm] using h⟩

/-- `START` answers only in output mode (R112, R45). -/
theorem execStart_cases {s t : State} (h : execStart s = .next t) :
    s.dir = .output ∧ t.frame = s.frame ∧ t.ph = .ackLow ∧ t.bitcnt = s.bitcnt ∧ t.spin = 0 ∧
      t.cause = s.cause ∧ t.tag = s.tag ∧ t.hum = s.hum ∧ t.tsign = s.tsign ∧ t.tmag = s.tmag ∧
      t.dir = .input ∧ t.out = .high ∧
      t.trace = s.trace ++ [.setLevel .low, .delayUs startLowUs, .setLevel .high, .setDirection .input] ∧
      t.tUs = s.tUs + startLowUs ∧ t.nread = s.nread ∧ t.cfg = s.cfg ∧ t.script = s.script ∧
      t.oracle = s.oracle ∧ t.port = s.port := by
  cases hd : s.dir with
  | input => simp [execStart, setLevel, hd] at h
  | output =>
    simp only [execStart, setLevel, hd, andThen_next, record_fields, delayUs_fields, Host.Outcome.next.injEq] at h
    subst h
    simp

/-- `END` answers only in input mode: the line restored after a `LOW`, or a miss counted (R116). -/
theorem execEnd_cases {s t : State} (h : execEnd s = .next t) :
    s.dir = .input ∧
      ((nextAnswer s = .low ∧ t = leaveWait .validate
          (record (.setLevel .high) { setDirection .output (afterRead s) with out := .high })) ∨
        (nextAnswer s ≠ .low ∧ t = countMiss s.cfg.endBudget .endTimeout (delayUs pollUs (afterRead s)))) := by
  obtain ⟨hd, ⟨ha, hk⟩ | hm⟩ := pollThen_cases h
  · exact ⟨hd, .inl ⟨ha, by simpa [restoreLine_eq, eq_comm] using hk⟩⟩
  · exact ⟨hd, .inr hm⟩

/-- `BITSAMPLE` answers only in input mode and with a bit left to receive (R134, R146). -/
theorem execBitSample_cases {s t : State} (h : execBitSample s = .next t) :
    s.dir = .input ∧ s.bitcnt < 40 ∧
      t = leaveWait (if s.bitcnt + 1 = 40 then .endWait else .bitLow)
        (shiftIn (levelBit (nextAnswer s)) (afterRead (delayUs sampleUs s))) := by
  obtain ⟨r, hr, ht⟩ := andThen_eq_next_iff.1 h
  obtain ⟨hd, rfl⟩ := getLevel_eq_next_iff.1 hr
  unfold takeSample at ht
  split at ht
  · next hb => exact ⟨hd, by simpa [nbitsFrame] using hb, by simpa [nbitsFrame, eq_comm] using ht⟩
  · cases ht

/-- `VALIDATE` goes on to `DECODE` or reports the mismatch (R157). -/
theorem execValidate_cases {s t : State} (h : execValidate s = .next t) :
    (frameValid s.frame = true ∧ t = { s with ph := .decode }) ∨
      (frameValid s.frame = false ∧ t = toIdle { s with tag := .checksumMismatch }) := by
  unfold execValidate at h
  split at h
  · next hv => cases h; exact .inl ⟨hv, rfl⟩
  · next hv => cases h; exact .inr ⟨by simpa using hv, rfl⟩

/-- `GetLevel` answers only in input mode (R43). -/
theorem execGetLevel_cases {s t : State} (h : execGetLevel s = .next t) : s.dir = .input ∧ t = afterRead s := by
  obtain ⟨r, hr, ht⟩ := andThen_eq_next_iff.1 h
  obtain ⟨hd, rfl⟩ := getLevel_eq_next_iff.1 hr
  exact ⟨hd, by simpa [eq_comm] using ht⟩

end Sys2Proof.Machine
end

