-- ==== Sys2Proof/Laws/PerInstr.lean ====
section
/-! SUPPORT. Statements for all instructions, one lemma a constructor. The family `WordFormat` says in
which of the three formats of spec/30_encoding.md R76 the code word of an operation stands, and that
whatever decodes to it is a word of that format. -/

namespace Sys2Proof.Laws.WordFormat

/-- The formats of R76 that select an operation. -/
inductive Format where
  | hostcmd
  | phase
  | drv
  deriving DecidableEq, Repr

/-- The format of a code word. -/
def ofWord : CodeWord → Format
  | .hostcmd _ => .hostcmd
  | .phase _ => .phase
  | .drv _ => .drv

/-- The format R76 gives an operation. -/
def ofInstr : Instr → Format
  | .acquire => .hostcmd
  | .abort => .hostcmd
  | .start => .phase
  | .ackLow => .phase
  | .ackHigh => .phase
  | .bitLow => .phase
  | .bitHigh => .phase
  | .bitSample => .phase
  | .endWait => .phase
  | .validate => .phase
  | .decodeReading => .phase
  | .recover => .phase
  | .setDirection _ => .drv
  | .setLevel _ => .drv
  | .getLevel => .drv
  | .delayUs _ => .drv

/-- A word decodes to `i` only if it stands in `i`'s format, and then `i` is well-formed. -/
def Statement (i : Instr) : Prop := ∀ w, decode w = .ok i → ofWord w = ofInstr i ∧ i.wf = true

/-- A HOSTCMD word is one of two commands. -/
theorem decodeHostCmd_cases {c : BitVec 2} {i : Instr} (h : decodeHostCmd c = .ok i) :
    i = .acquire ∨ i = .abort := by
  unfold decodeHostCmd at h
  split at h <;> cases h <;> simp

/-- A PHASE word is one of the ten engine operations. -/
theorem decodePhase_format {c : BitVec 4} {i : Instr} (h : decodePhase c = .ok i) :
    ofInstr i = .phase ∧ i.wf = true := by
  unfold decodePhase at h
  split at h <;> cases h <;> exact ⟨rfl, rfl⟩

/-- A DRV word is one of the four driver calls, its delay in range. -/
theorem decodeDrv_format {w : BitVec 12} {i : Instr} (h : decodeDrv w = .ok i) :
    ofInstr i = .drv ∧ i.wf = true := by
  unfold decodeDrv at h
  split at h
  · split at h <;> cases h; exact ⟨rfl, rfl⟩
  · split at h <;> cases h; exact ⟨rfl, rfl⟩
  · split at h <;> cases h; exact ⟨rfl, rfl⟩
  · cases h
    have := (drvArg w).isLt
    exact ⟨rfl, by simp [Instr.wf]; omega⟩

/-- The family's content once, for every operation; the lemmas below are its cases. -/
theorem format_of_decode {w : CodeWord} {i : Instr} (h : decode w = .ok i) : ofWord w = ofInstr i ∧ i.wf = true := by
  cases w with
  | hostcmd c => rcases decodeHostCmd_cases h with rfl | rfl <;> exact ⟨rfl, rfl⟩
  | phase c => obtain ⟨hf, hw⟩ := decodePhase_format h; exact ⟨hf.symm, hw⟩
  | drv d => obtain ⟨hf, hw⟩ := decodeDrv_format h; exact ⟨hf.symm, hw⟩

theorem acquire : Statement .acquire := fun _ h => format_of_decode h
theorem abort : Statement .abort := fun _ h => format_of_decode h
theorem start : Statement .start := fun _ h => format_of_decode h
theorem ackLow : Statement .ackLow := fun _ h => format_of_decode h
theorem ackHigh : Statement .ackHigh := fun _ h => format_of_decode h
theorem bitLow : Statement .bitLow := fun _ h => format_of_decode h
theorem bitHigh : Statement .bitHigh := fun _ h => format_of_decode h
theorem bitSample : Statement .bitSample := fun _ h => format_of_decode h
theorem endWait : Statement .endWait := fun _ h => format_of_decode h
theorem validate : Statement .validate := fun _ h => format_of_decode h
theorem decodeReading : Statement .decodeReading := fun _ h => format_of_decode h
theorem recover : Statement .recover := fun _ h => format_of_decode h
theorem setDirection (d : Direction) : Statement (.setDirection d) := fun _ h => format_of_decode h
theorem setLevel (v : Level) : Statement (.setLevel v) := fun _ h => format_of_decode h
theorem getLevel : Statement .getLevel := fun _ h => format_of_decode h
theorem delayUs (n : Nat) : Statement (.delayUs n) := fun _ h => format_of_decode h

end Sys2Proof.Laws.WordFormat
end

