-- ==== Sys2Proof/Tests/Slice0.lean ====
section
/-! SUPPORT. Tests: words written out from spec/30_encoding.md, single steps from spec/95_test_vectors.md, and
for each statement with hypotheses a witness that meets them. -/

namespace Sys2Proof.Tests

open Sys2Proof.Machine

/-! ### Helpers -/

/-- The state a step answers, if it answers one. -/
def after : Host.Outcome State Fault Refusal → Option State
  | .next s => some s
  | .fault _ => none
  | .refused _ => none

/-- Reset with `Cfg (3,3,3)`. -/
def base : State := { State.reset with cfg := ⟨3, .finite 3, .finite 3, 0⟩ }

/-- A phase of the cycle with the line in input mode and a script. -/
def waiting (p : Phase) (sc : List Level) : State := { base with ph := p, dir := .input, script := sc }

/-- The frame of KZ's end-to-end example, corrected (S5'). -/
def goodFrame : Frame := ⟨0x02, 0x8C, 0x01, 0x03, 0x92⟩

/-- `END` with the good frame received. -/
def ending (sc : List Level) : State := { waiting .endWait sc with frame := goodFrame, bitcnt := 40 }

/-- `DECODE` with the good frame received. -/
def decoding : State := { base with ph := .decode, frame := goodFrame, bitcnt := 40 }

/-! ### WellFormed: the one check, refusing -/

/-- R83: the argument of `DelayUs` has ten bits. -/
theorem test_wf_refuses_delay_1024 : Instr.wf (.delayUs 1024) = false := by decide

/-- R83: 1023 is the last delay with a word. -/
theorem test_wf_admits_delay_1023 : Instr.wf (.delayUs 1023) = true := by decide

/-! ### Decoding: words from R80, R82, R83 bit by bit -/

theorem test_decode_acquire : decode (.hostcmd 0b01#2) = .ok .acquire := by decide
theorem test_decode_abort : decode (.hostcmd 0b10#2) = .ok .abort := by decide
theorem test_decode_no_command : decode (.hostcmd 0b00#2) = .error .noCommand := by decide
theorem test_decode_reserved_command : decode (.hostcmd 0b11#2) = .error .reservedHostCmd := by decide
theorem test_decode_start : decode (.phase 0b0001#4) = .ok .start := by decide
theorem test_decode_ackLow : decode (.phase 0b0010#4) = .ok .ackLow := by decide
theorem test_decode_ackHigh : decode (.phase 0b0011#4) = .ok .ackHigh := by decide
theorem test_decode_bitLow : decode (.phase 0b0100#4) = .ok .bitLow := by decide
theorem test_decode_bitHigh : decode (.phase 0b0101#4) = .ok .bitHigh := by decide
theorem test_decode_bitSample : decode (.phase 0b0110#4) = .ok .bitSample := by decide
theorem test_decode_end : decode (.phase 0b0111#4) = .ok .endWait := by decide
theorem test_decode_validate : decode (.phase 0b1000#4) = .ok .validate := by decide
theorem test_decode_decode : decode (.phase 0b1001#4) = .ok .decodeReading := by decide
theorem test_decode_recover : decode (.phase 0b1010#4) = .ok .recover := by decide
theorem test_decode_idle : decode (.phase 0b0000#4) = .error .noOperation := by decide
theorem test_decode_reserved_phase : decode (.phase 0b1011#4) = .error .reservedPhase := by decide
theorem test_decode_set_direction : decode (.drv 0b000000000001#12) = .ok (.setDirection .output) := by decide
theorem test_decode_set_level : decode (.drv 0b010000000000#12) = .ok (.setLevel .low) := by decide
theorem test_decode_get_level : decode (.drv 0b100000000000#12) = .ok .getLevel := by decide
theorem test_decode_delay : decode (.drv 0b111111101000#12) = .ok (.delayUs 1000) := by decide
theorem test_decode_reserved_drv : decode (.drv 0b000000000010#12) = .error .reservedDrv := by decide

/-! ### The opcode table's numbering and the fetch (assumption 13) -/

theorem test_table_command_word : decodeTableWord 2 1 = some .acquire := by decide
theorem test_table_phase_word : decodeTableWord 8 10 = some .recover := by decide
theorem test_table_drv_word : decodeTableWord 16 0xC23 = some (.delayUs 35) := by decide
theorem test_table_refuses_high_bits : decodeTableWord 16 4096 = none := by decide

theorem test_fetch_start : (after (step (State.reset.withFetchWord 8 1))).map (·.ph) = some .ackLow := by decide
theorem test_fetch_acquire : (after (step (State.reset.withFetchWord 2 1))).map (·.ph) = some .start := by decide
theorem test_fetch_delay : (after (step (State.reset.withFetchWord 16 0xC23))).map (·.tUs) = some 35 := by decide

/-! ### Single steps (95_test_vectors.md, row in each comment) -/

/-- H2. -/
theorem test_acquire_clears_outcome :
    (after (exec .acquire { base with tag := .reading, hum := 652, tmag := 259 })).map
      (fun t => (t.ph, t.tag, t.hum, t.tmag)) = some (.start, .none, 0, 0) := by decide

/-- H3. -/
theorem test_acquire_refused_while_busy : exec .acquire (waiting .ackLow []) = .refused .acquireWhileBusy := by rfl

/-- H8. -/
theorem test_abort_discards_frame :
    (after (exec .abort { base with ph := .validate, frame := goodFrame, bitcnt := 40 })).map
      (fun t => (t.ph, t.frame, t.bitcnt, t.trace)) =
      some (.idle, Frame.zero, 0, [.setDirection .output, .setLevel .high]) := by decide

/-- H4. -/
theorem test_abort_idle_has_no_effect :
    after (exec .abort { base with tag := .reading, hum := 652 }) = some { base with tag := .reading, hum := 652 } := by rfl

/-- K8. -/
theorem test_start_pulse :
    (after (exec .start { base with ph := .start })).map (fun t => (t.ph, t.dir, t.out, t.tUs, t.trace)) =
      some (.ackLow, .input, .high, 1000,
        [.setLevel .low, .delayUs 1000, .setLevel .high, .setDirection .input]) := by decide

/-- K9: no delay on the read that succeeds. -/
theorem test_ackLow_passes :
    (after (exec .ackLow (waiting .ackLow [.low]))).map (fun t => (t.ph, t.spin, t.trace)) =
      some (.ackHigh, 0, [.getLevel .low]) := by decide

/-- K11. -/
theorem test_ackLow_times_out :
    (after (exec .ackLow { waiting .ackLow [.high] with spin := 2 })).map (fun t => (t.ph, t.spin, t.cause)) =
      some (.fail, 3, .ackTimeout) := by decide

/-- K12. -/
theorem test_ackHigh_passes :
    (after (exec .ackHigh { waiting .ackHigh [.high] with spin := 2 })).map (fun t => (t.ph, t.spin)) =
      some (.bitLow, 0) := by decide

/-- K2, its last poll. -/
theorem test_ackHigh_times_out :
    (after (exec .ackHigh { waiting .ackHigh [.low] with spin := 2 })).map (fun t => (t.ph, t.cause)) =
      some (.fail, .ackTimeout2) := by decide

/-- M1, its first poll. -/
theorem test_bitLow_counts :
    (after (exec .bitLow { waiting .bitLow [.high] with bitcnt := 5 })).map
      (fun t => (t.ph, t.spin, t.bitcnt, t.trace)) = some (.bitLow, 1, 5, [.getLevel .high, .delayUs 1]) := by decide

/-- M2, its second poll. -/
theorem test_bitHigh_passes :
    (after (exec .bitHigh { waiting .bitHigh [.high] with spin := 1 })).map (fun t => (t.ph, t.spin)) =
      some (.bitSample, 0) := by decide

/-- K4, its last poll. -/
theorem test_bitHigh_times_out :
    (after (exec .bitHigh { waiting .bitHigh [.low] with spin := 2 })).map (fun t => (t.ph, t.cause)) =
      some (.fail, .bitTimeout) := by decide

/-- M5. -/
theorem test_bitSample_last_bit :
    (after (exec .bitSample { waiting .bitSample [.low] with bitcnt := 39, frame := ⟨0, 0, 0, 0, 0x49⟩ })).map
      (fun t => (t.ph, t.frame.b4, t.bitcnt, t.spin)) = some (.endWait, 0x92, 40, 0) := by decide

/-- M6. -/
theorem test_bitSample_next_byte :
    (after (exec .bitSample { waiting .bitSample [.high] with bitcnt := 8, frame := ⟨2, 0, 0, 0, 0⟩ })).map
      (fun t => (t.frame, t.bitcnt, t.trace)) =
      some (⟨2, 1, 0, 0, 0⟩, 9, [.delayUs 35, .getLevel .high]) := by decide

/-- K13. -/
theorem test_end_restores_line :
    (after (exec .endWait (ending [.low]))).map (fun t => (t.ph, t.dir, t.out, t.bitcnt, t.trace)) =
      some (.validate, .output, .high, 40, [.getLevel .low, .setDirection .output, .setLevel .high]) := by decide

/-- K14. -/
theorem test_end_unbounded :
    (after (exec .endWait { ending [.high] with cfg := ⟨3, .finite 3, .inf, 0⟩ })).map
      (fun t => (t.ph, t.spin, t.trace)) = some (.endWait, 0, [.getLevel .high, .delayUs 1]) := by decide

/-- 2.5, row 5: the sum wraps. -/
theorem test_validate_wraps :
    (after (exec .validate { base with ph := .validate, frame := ⟨0xFF, 0xFF, 0xFF, 0xFF, 0xFC⟩ })).map (·.ph) =
      some .decode := by decide

/-- P3: the frame exactly as KZ prints it. -/
theorem test_validate_rejects_printed_frame :
    (after (exec .validate { base with ph := .validate, frame := ⟨0x02, 0x8C, 0x01, 0x03, 0x90⟩ })).map
      (fun t => (t.ph, t.tag, t.frame)) = some (.idle, .checksumMismatch, Frame.zero) := by decide

/-- S5'. -/
theorem test_decode_good_frame :
    (after (exec .decodeReading decoding)).map (fun t => (t.ph, t.tag, outcomeWord t)) =
      some (.idle, .reading, 0x1028C0103#35) := by decide

/-- S3: the sign flag is no bit of the magnitude. -/
theorem test_decode_negative :
    (after (exec .decodeReading { decoding with frame := ⟨0x02, 0x5B, 0x80, 0x0A, 0xE7⟩ })).map
      (fun t => (t.hum, t.tsign, t.tmag, tempTenths t.tsign t.tmag)) = some (603, 1, 10, -10) := by decide

/-- K15. -/
theorem test_recover_reports_cause :
    (after (exec .recover { waiting .fail [] with cause := .bitTimeout, bitcnt := 1, frame := ⟨1, 0, 0, 0, 0⟩ })).map
      (fun t => (t.ph, t.tag, t.cause, t.frame, t.dir, t.out)) =
      some (.idle, .bitTimeout, .none, Frame.zero, .output, .high) := by decide

/-- R42, R45. -/
theorem test_set_level_faults_in_input : exec (.setLevel .low) (waiting .ackLow []) = .fault .setLevelInInput := by rfl

/-- R43, R45. -/
theorem test_get_level_faults_in_output : exec .getLevel base = .fault .getLevelInOutput := by rfl

/-- R41, R47: `OUT` is kept. -/
theorem test_set_direction_keeps_out :
    (after (exec (.setDirection .input) base)).map (fun t => (t.dir, t.out)) = some (.input, .high) := by decide

/-- R44. -/
theorem test_delay_adds :
    (after (exec (.delayUs 35) { base with tUs := 1000 })).map (fun t => (t.tUs, t.trace)) =
      some (1035, [.delayUs 35]) := by decide

/-- 2.4, the row of `0x8C`. -/
theorem test_shift_byte_8C :
    (shiftBits Frame.zero 8 [1#1, 0#1, 0#1, 0#1, 1#1, 1#1, 0#1, 0#1]).b1 = 0x8C := by decide

/-- P4's first rise under R60: the waveform is low before 30 us and the sensor answers then. -/
theorem test_wave_explains :
    waveExplains (fun t => if t < 30 then .high else .low) 0 [.delayUs 29, .getLevel .high, .delayUs 1, .getLevel .low] []
      = true := by decide

/-! ### States that meet the invariant and the premises -/

theorem inv_base : EngineInv base := by
  refine ⟨?_, ?_, ?_, ?_, ?_, ?_, ?_, ?_⟩ <;> decide

theorem launch_base : Launch base := by decide

/-- A wait at the last poll its budget allows. -/
def lastPoll : State := { waiting .bitLow [.high] with spin := 2, bitcnt := 39 }

theorem inv_lastPoll : EngineInv lastPoll := by
  refine ⟨?_, ?_, ?_, ?_, ?_, ?_, ?_, ?_⟩ <;> decide

theorem inv_decoding : EngineInv decoding := by
  refine ⟨?_, ?_, ?_, ?_, ?_, ?_, ?_, ?_⟩ <;> decide

/-! ### Witnesses: each statement's hypotheses are met together -/

theorem witness_DecodeOfEncode : ∃ i : Instr, i.wf = true ∧ i = .delayUs 1023 := ⟨_, by decide, rfl⟩

theorem witness_EncodeOfDecode : ∃ (w : CodeWord) (i : Instr), decode w = .ok i :=
  ⟨.drv 0xFFF#12, .delayUs 1023, by decide⟩

theorem witness_ReservedWordsFault :
    (∃ c : BitVec 4, c.toNat = 11 ∧ 11 ≤ c.toNat) ∧ (∃ s : State, s.port = .host 0b11#2 :: []) ∧
    (∃ w : BitVec 12, (drvOp w).toNat = 0 ∧ (drvArg w).toNat = 2) ∧
    (∃ w : BitVec 12, (drvOp w).toNat = 1 ∧ 2 ≤ (drvArg w).toNat) ∧
    (∃ w : BitVec 12, (drvOp w).toNat = 2 ∧ (drvArg w).toNat ≠ 0) :=
  ⟨⟨11#4, by decide⟩, ⟨{ base with port := [.host 0b11#2] }, rfl⟩, ⟨0x002#12, by decide⟩, ⟨0x7FF#12, by decide⟩,
    ⟨0x801#12, by decide⟩⟩

theorem witness_StepRunsDecodedInstruction :
    (∃ (s : State) (i : Instr), i.wf = true ∧ s.port = [] ∧ decode (.phase (phaseCode s.ph)) = .ok i) ∧
    (∃ (s : State) (i : Instr), i.wf = true ∧ s.port = .host 0#2 :: [] ∧
      decode (.phase (phaseCode s.ph)) = .ok i) ∧
    (∃ (s : State) (c : BitVec 2) (i : Instr), i.wf = true ∧ s.port = .host c :: [] ∧
      decode (.hostcmd c) = .ok i) ∧
    (∃ (s : State) (w : BitVec 12) (i : Instr), i.wf = true ∧ s.port = .drv w :: [] ∧ decode (.drv w) = .ok i) :=
  ⟨⟨decoding, .decodeReading, by decide⟩, ⟨{ decoding with port := [.host 0#2] }, .decodeReading, by decide⟩,
    ⟨{ base with port := [.host 1#2] }, 1#2, .acquire, by decide⟩,
    ⟨{ base with port := [.drv 0xC01#12] }, 0xC01#12, .delayUs 1, by decide⟩⟩

theorem witness_IdleEngineWaits :
    (∃ s : State, s.ph = .idle ∧ s.port = []) ∧ (∃ s : State, s.ph = .idle ∧ s.port = .host 0#2 :: []) :=
  ⟨⟨base, by decide⟩, ⟨{ base with port := [.host 0#2] }, by decide⟩⟩

theorem witness_ResetEventResult : ∃ s : State, s.ph = .bitLow ∧ s.port = .reset :: [] :=
  ⟨{ lastPoll with port := [.reset] }, by decide⟩

theorem witness_StepKeepsInvariant : ∃ s t : State, EngineInv s ∧ step s = .next t ∧ t.ph = .fail :=
  ⟨lastPoll, _, inv_lastPoll, rfl, rfl⟩

theorem witness_NoModelFault :
    ∃ s : State, EngineInv s ∧ (s.port.all fun w => !reservedHostWord w) = true := ⟨lastPoll, inv_lastPoll, by decide⟩

theorem witness_BusyEngineProgresses : ∃ s : State, EngineInv s ∧ quiet s = true ∧ s.ph ≠ .idle :=
  ⟨lastPoll, inv_lastPoll, by decide, by decide⟩

theorem witness_PhaseTransitions : ∃ s t : State, quiet s = true ∧ step s = .next t ∧ s.ph = .bitLow ∧ t.ph = .fail :=
  ⟨lastPoll, _, by decide, rfl, rfl, rfl⟩

theorem witness_GhostsFollowTrace : ∃ s t : State, GhostsAgree s ∧ step s = .next t ∧ t.tUs = 1 ∧ t.nread = 1 :=
  ⟨lastPoll, _, by decide, rfl, rfl, rfl⟩

theorem witness_SimulatorFollowsWaveform :
    (∃ (w : Nat → Level) (s t : State), GhostsAgree s ∧ waveExplains w 0 s.trace [] = true ∧
      simulateStep w s = .next t ∧ t.ph = .bitHigh) ∧
    (∃ (w : Nat → Level) (s t : State), GhostsAgree s ∧ waveExplains w 0 s.trace [] = true ∧
      simulateStep w s = .next t ∧ s.port = .drv 0x800#12 :: [] ∧ t.trace = [.getLevel .low]) :=
  ⟨⟨fun _ => .low, lastPoll, _, by decide, rfl, rfl, rfl⟩,
    ⟨fun t => if t < 35 then .low else .high, { waiting .bitSample [] with port := [.drv 0x800#12] }, _, by decide, rfl,
      rfl, rfl, rfl⟩⟩

/-- The window of `BITSAMPLE` moves its read to `T + 35`; a driver's read at the port in the same phase is at `T` (R60). -/
theorem test_read_instant :
    readInstant (waiting .bitSample []) = 35 ∧
      readInstant { waiting .bitSample [] with port := [.drv 0x800#12] } = 0 := by decide

theorem witness_RequestedTimeIsLowerBound : ∃ (i : Instr) (s t : State), exec i s = .next t ∧ t.tUs = s.tUs + 35 :=
  ⟨.bitSample, waiting .bitSample [.high], _, rfl, rfl⟩

theorem witness_LateAbortLeavesOutcome :
    ∃ s : State, s.ph = .idle ∧ s.port = .host 0b10#2 :: [.host 0b01#2] ∧ s.tag = .reading :=
  ⟨{ base with tag := .reading, port := [.host 0b10#2, .host 0b01#2] }, by decide⟩

theorem witness_AcquireResult :
    (∃ s : State, s.ph = .idle) ∧ (∃ s : State, s.ph ≠ .idle) ∧ (∃ s : State, s.ph = .idle ∧ s.dir = .input) :=
  ⟨⟨base, rfl⟩, ⟨lastPoll, by decide⟩, ⟨waiting .idle [], by decide⟩⟩

theorem witness_AbortResult : (∃ s : State, s.ph ≠ .idle) ∧ (∃ s : State, s.ph = .idle) :=
  ⟨⟨lastPoll, by decide⟩, ⟨base, rfl⟩⟩

theorem witness_ResetActsAsAbort : ∃ s t u : State, s.ph ≠ .idle ∧ s.port = .reset :: [] ∧ step s = .next t ∧
    exec .abort { s with port := [] } = .next u :=
  ⟨{ lastPoll with port := [.reset] }, _, _, by decide, rfl, rfl, rfl⟩

theorem witness_StartResult : ∃ s : State, s.dir = .output := ⟨base, rfl⟩

theorem witness_ContractViolationsFault : (∃ s : State, s.dir = .input) ∧ (∃ s : State, s.dir = .output) :=
  ⟨⟨lastPoll, rfl⟩, ⟨base, rfl⟩⟩

/-- One state for each clause of `PollSpec`: the awaited level, a miss under `INF`, a miss below the budget, and
the miss that reaches it. -/
theorem witness_PollOperations :
    (∃ s : State, s.dir = .input ∧ nextAnswer s = .low) ∧
    (∃ s : State, s.dir = .input ∧ nextAnswer s ≠ .low ∧ s.cfg.bitBudget = .inf) ∧
    (∃ s : State, s.dir = .input ∧ nextAnswer s ≠ .low ∧ s.cfg.bitBudget = .finite 3 ∧ s.spin + 1 ≠ 3) ∧
    (∃ s : State, s.dir = .input ∧ nextAnswer s ≠ .low ∧ s.cfg.bitBudget = .finite 3 ∧ s.spin + 1 = 3) ∧
    (∃ s : State, s.dir = .input ∧ nextAnswer s = .high) ∧
    (∃ s : State, s.dir = .input ∧ nextAnswer s ≠ .high ∧ s.cfg.ackBudget = 3 ∧ s.spin + 1 = 3) :=
  ⟨⟨waiting .bitLow [.low], by decide⟩, ⟨{ lastPoll with cfg := ⟨3, .inf, .inf, 0⟩ }, by decide⟩,
    ⟨waiting .bitLow [.high], by decide⟩, ⟨lastPoll, by decide⟩, ⟨lastPoll, by decide⟩,
    ⟨{ waiting .ackHigh [.low] with spin := 2 }, by decide⟩⟩

theorem witness_EndResult :
    (∃ s : State, s.dir = .input ∧ nextAnswer s = .low) ∧
    (∃ s : State, s.dir = .input ∧ nextAnswer s = .high ∧ s.cfg.endBudget = .inf) ∧
    (∃ s : State, s.dir = .input ∧ nextAnswer s = .high ∧ s.cfg.endBudget = .finite 3 ∧ s.spin + 1 ≠ 3) ∧
    (∃ s : State, s.dir = .input ∧ nextAnswer s = .high ∧ s.cfg.endBudget = .finite 3 ∧ s.spin + 1 = 3) :=
  ⟨⟨ending [.low], by decide⟩, ⟨{ ending [.high] with cfg := ⟨3, .inf, .inf, 0⟩ }, by decide⟩,
    ⟨ending [.high], by decide⟩, ⟨{ ending [.high] with spin := 2 }, by decide⟩⟩

theorem witness_BitSampleResult :
    (∃ (s : State) (i : Nat), s.dir = .input ∧ s.bitcnt < 40 ∧ i = s.bitcnt / 8 ∧ i = 0) ∧
    (∃ (s : State) (i : Nat), s.dir = .input ∧ s.bitcnt < 40 ∧ i = s.bitcnt / 8 ∧ s.bitcnt = 39) :=
  ⟨⟨waiting .bitSample [.high], 0, by decide⟩, ⟨{ waiting .bitSample [.low] with bitcnt := 39 }, 4, by decide⟩⟩

theorem witness_ValidateResult :
    (∃ s : State, (s.frame.b0.toNat + s.frame.b1.toNat + s.frame.b2.toNat + s.frame.b3.toNat) % 256 = s.frame.b4.toNat) ∧
    (∃ s : State, (s.frame.b0.toNat + s.frame.b1.toNat + s.frame.b2.toNat + s.frame.b3.toNat) % 256 ≠ s.frame.b4.toNat) :=
  ⟨⟨decoding, by decide⟩, ⟨{ decoding with frame := ⟨0, 0, 0, 1, 0⟩ }, by decide⟩⟩

theorem witness_SetLevelResult : (∃ s : State, s.dir = .output) ∧ (∃ s : State, s.dir = .input) :=
  ⟨⟨base, rfl⟩, ⟨lastPoll, rfl⟩⟩

theorem witness_GetLevelResult :
    (∃ s : State, s.dir = .input) ∧ (∃ s : State, s.script = .high :: []) ∧ (∃ s : State, s.dir = .output) :=
  ⟨⟨lastPoll, rfl⟩, ⟨lastPoll, rfl⟩, ⟨base, rfl⟩⟩

/-- An operation that answers and may write the register, and one that may not, for each of the writers'
statements. -/
theorem witness_Writers :
    (∃ (i : Instr) (s t : State), exec i s = .next t ∧ writesFrame i = false ∧ writesTag i = false ∧
      writesReading i = false ∧ writesDir i = false ∧ writesOut i = false) ∧
    (∃ (i : Instr) (s t : State), exec i s = .next t ∧ writesSpin i = false ∧ writesCause i = false ∧
      driverCall i = true) ∧
    (∃ (i : Instr) (s t : State), exec i s = .next t ∧ t.bitcnt = s.bitcnt + 1) :=
  ⟨⟨.bitLow, lastPoll, _, rfl, by decide⟩, ⟨.delayUs 1, base, _, rfl, by decide⟩,
    ⟨.bitSample, waiting .bitSample [.high], _, rfl, rfl⟩⟩

theorem witness_EngineDelays :
    ∃ (i : Instr) (s t : State), driverCall i = false ∧ exec i s = .next t ∧ t.trace ≠ s.trace :=
  ⟨.bitSample, waiting .bitSample [.high], _, by decide, rfl, by decide⟩

theorem witness_ReturnToIdleClears :
    ∃ (i : Instr) (s t : State), exec i s = .next t ∧ s.ph ≠ .idle ∧ t.ph = .idle :=
  ⟨.decodeReading, decoding, _, rfl, by decide, rfl⟩

theorem witness_FrameHoldsSampledBits : ∃ bits : List (BitVec 1), bits.length = 40 := ⟨List.replicate 40 1#1, by decide⟩

theorem witness_ChecksumProperty :
    (∃ b0 b1 b2 b3 c : Byte, c.toNat = (b0.toNat + b1.toNat + b2.toNat + b3.toNat) % 256) ∧
    (∃ b0 b1 b2 b3 c : Byte, c.toNat = (b0.toNat + b1.toNat + b2.toNat + b3.toNat + 1) % 256) :=
  ⟨⟨0xFF, 1, 0, 0, 0, by decide⟩, ⟨0xFF, 0, 0, 0, 0, by decide⟩⟩

theorem witness_OneByteChangeDetected :
    ∃ (f : Frame) (i : Nat) (v : Byte), i < 5 ∧ frameValid f = true ∧ v ≠ frameByte f i :=
  ⟨goodFrame, 4, 0x90, by decide⟩

theorem witness_OutcomeIsFrameBits :
    (∃ s t : State, exec .decodeReading s = .next t) ∧ (∃ s : State, EngineInv s ∧ s.tag ≠ .reading) :=
  ⟨⟨decoding, _, rfl⟩, ⟨decoding, inv_decoding, by decide⟩⟩

theorem witness_FailureOutcomeWords :
    ∀ g : Tag, ∃ s : State, NoReading s ∧ s.tag = g := fun g => ⟨{ base with tag := g }, ⟨rfl, rfl, rfl⟩, rfl⟩

theorem witness_ReadingOnlyFromValidFrame :
    (∃ s t : State, EngineInv s ∧ step s = .next t ∧ t.tag = .reading ∧ s.ph = .decode) ∧
    (∃ s t : State, EngineInv s ∧ step s = .next t ∧ t.tag = .reading ∧ s.tag = .reading) :=
  ⟨⟨decoding, _, inv_decoding, rfl, rfl, rfl⟩,
    ⟨{ base with tag := .reading, hum := 652 }, _,
      by refine ⟨?_, ?_, ?_, ?_, ?_, ?_, ?_, ?_⟩ <;> decide, rfl, rfl, rfl⟩⟩

/-- A state and a number of answers for each clause of `WaitSpec` at its boundary: the right answer is the last the
budget allows, the budget is used up, and one answer short of it. -/
theorem witness_AckHighIsWaitLevel :
    (∃ s : State, s.ph = .ackHigh ∧ s.dir = .input ∧ s.spin = 0 ∧ s.port = [] ∧ s.cfg.ackBudget = 3 ∧
      waitLevel .high (.finite s.cfg.ackBudget) (nextAnswers 3 s) = .ok 2) ∧
    (∃ s : State, s.ph = .ackHigh ∧ s.dir = .input ∧ s.spin = 0 ∧ s.port = [] ∧ s.cfg.ackBudget = 3 ∧
      waitLevel .high (.finite s.cfg.ackBudget) (nextAnswers 3 s) = .timeout) ∧
    (∃ s : State, s.ph = .ackHigh ∧ s.dir = .input ∧ s.spin = 0 ∧ s.port = [] ∧ s.cfg.ackBudget = 3 ∧
      waitLevel .high (.finite s.cfg.ackBudget) (nextAnswers 2 s) = .undecided) :=
  ⟨⟨waiting .ackHigh [.low, .low, .high], by decide⟩, ⟨waiting .ackHigh [.low, .low, .low], by decide⟩,
    ⟨waiting .ackHigh [.low, .low], by decide⟩⟩

theorem witness_OtherWaitsAreWaitLevel :
    (∃ s : State, s.ph = .ackLow ∧ s.dir = .input ∧ s.spin = 0 ∧ s.port = [] ∧ s.cfg.ackBudget = 3 ∧
      waitLevel .low (.finite s.cfg.ackBudget) (nextAnswers 3 s) = .timeout) ∧
    (∃ s : State, s.ph = .bitLow ∧ s.dir = .input ∧ s.spin = 0 ∧ s.port = [] ∧ s.cfg.bitBudget = .inf ∧
      waitLevel .low s.cfg.bitBudget (nextAnswers 4 s) = .ok 3) ∧
    (∃ s : State, s.ph = .bitHigh ∧ s.dir = .input ∧ s.spin = 0 ∧ s.port = [] ∧ s.cfg.bitBudget = .inf ∧
      waitLevel .high s.cfg.bitBudget (nextAnswers 4 s) = .undecided) ∧
    (∃ s : State, s.ph = .endWait ∧ s.dir = .input ∧ s.spin = 0 ∧ s.port = [] ∧ s.cfg.endBudget = .finite 3 ∧
      waitLevel .low s.cfg.endBudget (nextAnswers 3 s) = .ok 2) :=
  ⟨⟨waiting .ackLow [.high, .high, .high], by decide⟩,
    ⟨{ waiting .bitLow [.high, .high, .high, .low] with cfg := ⟨3, .inf, .inf, 0⟩ }, by decide⟩,
    ⟨{ waiting .bitHigh [.low, .low, .low, .low] with cfg := ⟨3, .inf, .inf, 0⟩ }, by decide⟩,
    ⟨ending [.high, .high, .low], by decide⟩⟩

theorem witness_AckTimeoutProperty :
    ∃ (s : State) (rest : List Level), Launch s ∧ quiet s = true ∧
      s.script = List.replicate s.cfg.ackBudget .high ++ rest :=
  ⟨{ base with script := [.high, .high, .high] }, [], by decide, by decide, rfl⟩

theorem witness_CycleDeliversFrame :
    ∃ (s : State) (a b e : Nat) (cells : List BitCell) (rest : List Level), Launch s ∧ quiet s = true ∧
      cells.length = 40 ∧ a < s.cfg.ackBudget ∧ b < s.cfg.ackBudget ∧ admitsMisses s.cfg.endBudget e = true ∧
      (cells.all fun k => admitsMisses s.cfg.bitBudget k.c && admitsMisses s.cfg.bitBudget k.d) = true ∧
      s.script = cycleScript a b cells e ++ rest :=
  ⟨{ base with script := cycleScript 2 0 (List.replicate 40 ⟨2, 1, .high⟩) 2 ++ [.low] }, 2, 0, 2,
    List.replicate 40 ⟨2, 1, .high⟩, [.low], by decide, rfl, rfl, by decide, by decide, rfl, by decide, rfl⟩

theorem witness_HardenedStepsDecrease :
    ∃ s : State, EngineInv s ∧ hardened s.cfg = true ∧ quiet s = true ∧ s.ph ≠ .idle :=
  ⟨lastPoll, inv_lastPoll, by decide, by decide, by decide⟩

theorem witness_HardenedCycleEnds :
    ∃ (s : State) (bound : Nat), Launch s ∧ quiet s = true ∧ cycleStepBound s.cfg = some bound ∧ bound = 292 :=
  ⟨base, 292, by decide, by decide, by decide, rfl⟩

theorem witness_HardenedReadsBounded :
    ∃ (s t : State) (fuel b e : Nat), Launch s ∧ quiet s = true ∧ s.cfg.bitBudget = .finite b ∧
      s.cfg.endBudget = .finite e ∧ acquireCall fuel s = .next t ∧ t.nread = 1 :=
  ⟨{ base with script := [.low] }, _, 2, 3, 3, by decide, by decide, rfl, rfl, rfl, rfl⟩

theorem witness_UnboundedWaitHangs :
    (∃ (n : Nat) (s : State) (v : Level), n = 2 ∧ s.dir = .input ∧ s.port = [] ∧ s.script = List.replicate n v ∧
      s.ph = .bitLow ∧ s.cfg.bitBudget = .inf ∧ v = .high) ∧
    (∃ (n : Nat) (s : State) (v : Level), n = 2 ∧ s.dir = .input ∧ s.port = [] ∧ s.script = List.replicate n v ∧
      s.ph = .bitHigh ∧ s.cfg.bitBudget = .inf ∧ v = .low) ∧
    (∃ (n : Nat) (s : State) (v : Level), n = 2 ∧ s.dir = .input ∧ s.port = [] ∧ s.script = List.replicate n v ∧
      s.ph = .endWait ∧ s.cfg.endBudget = .inf ∧ v = .high) :=
  ⟨⟨2, { waiting .bitLow [.high, .high] with cfg := ⟨3, .inf, .inf, 0⟩ }, .high, by decide⟩,
    ⟨2, { waiting .bitHigh [.low, .low] with cfg := ⟨3, .inf, .inf, 0⟩ }, .low, by decide⟩,
    ⟨2, { waiting .endWait [.high, .high] with cfg := ⟨3, .inf, .inf, 0⟩ }, .high, by decide⟩⟩

/-- Two idle states with different outcomes and histories. -/
theorem witness_CycleIdempotent :
    ∃ s₁ s₂ t₁ t₂ : State, Launch s₁ ∧ Launch s₂ ∧ s₁.cfg = s₂.cfg ∧ s₁.script = s₂.script ∧
      s₁.oracle = s₂.oracle ∧ s₁.port = s₂.port ∧ exec .acquire s₁ = .next t₁ ∧ exec .acquire s₂ = .next t₂ ∧
      quiet s₁ = true ∧ s₁.tag ≠ s₂.tag ∧ s₁.trace ≠ s₂.trace :=
  ⟨base, { base with tag := .endTimeout, trace := [.delayUs 1], tUs := 1 }, _, _, by decide, by decide, rfl, rfl, rfl,
    rfl, rfl, rfl, by decide, by decide, by decide⟩

end Sys2Proof.Tests
end

section
/-! Three driver calls as operations (spec/20_memory.md R41 to R43): what each answers, and the obligations
O30 to O32 from it. -/

namespace Sys2Proof.Machine

/-! ### The operations of the driver -/

theorem exec_setDirection (d : Direction) (s : State) : exec (.setDirection d) s = .next (setDirection d s) := rfl

theorem exec_setLevel (v : Level) (s : State) : exec (.setLevel v) s = setLevel v s := rfl

/-- The operation keeps the state after the call; the level answered goes into no register. -/
theorem exec_getLevel (s : State) : exec .getLevel s = andThen (getLevel s) fun r => .next r.2 := rfl

theorem exec_getLevel_of_input {s : State} (h : s.dir = .input) : exec .getLevel s = .next (afterRead s) := by
  rw [exec_getLevel, getLevel_of_input h, andThen_next]

theorem exec_getLevel_of_output {s : State} (h : s.dir = .output) :
    exec .getLevel s = .fault .getLevelInOutput := by
  rw [exec_getLevel, getLevel_of_output h, andThen_fault]

/-! ### The level driven on the line (R47) -/

theorem drivenLevel_of_output {s : State} (h : s.dir = .output) : drivenLevel s = some s.out := by
  simp [drivenLevel, h]

theorem drivenLevel_of_input {s : State} (h : s.dir = .input) : drivenLevel s = none := by
  simp [drivenLevel, h]

/-! ### The environment's answer (R48, R49) -/

theorem nextAnswer_of_script_cons {s : State} {v : Level} {rest : List Level} (h : s.script = v :: rest) :
    nextAnswer s = v := by
  simp [nextAnswer, h]

theorem dropAnswer_of_script_cons {s : State} {v : Level} {rest : List Level} (h : s.script = v :: rest) :
    dropAnswer s = { s with script := rest } := by
  simp [dropAnswer, h]

/-- Using up an answer is no driver call. -/
@[simp] theorem dropAnswer_trace (s : State) : (dropAnswer s).trace = s.trace := by
  cases h : s.script <;> simp [dropAnswer, h]

/-- A read whole: one answer used, one read counted, one call recorded. -/
theorem afterRead_eq (s : State) :
    afterRead s =
      { dropAnswer s with nread := s.nread + 1, trace := s.trace ++ [.getLevel (nextAnswer s)] } := by
  simp [afterRead, record]

/-! ### The obligations -/

/-- Settles O30: the call answers in both directions, and the line is driven by the direction it sets. -/
theorem setDirectionResult : Obligations.SetDirectionResult := by
  unfold Obligations.SetDirectionResult
  intro s d
  refine ⟨setDirection d s, exec_setDirection d s, rfl, ?_⟩
  cases d with
  | output => exact drivenLevel_of_output rfl
  | input => exact drivenLevel_of_input rfl

/-- Settles O31, by the direction the call finds. -/
theorem setLevelResult : Obligations.SetLevelResult := by
  unfold Obligations.SetLevelResult
  intro s v
  constructor
  · intro hout
    have hcall : exec (.setLevel v) s = .next (record (.setLevel v) { s with out := v }) := by
      rw [exec_setLevel, setLevel_of_output v hout]
    exact ⟨_, hcall, rfl, drivenLevel_of_output hout⟩
  · intro hin
    rw [exec_setLevel, setLevel_of_input v hin]

/-- Settles O32: a read in input mode is `afterRead`, a script's head is what it uses, and output mode faults. -/
theorem getLevelResult : Obligations.GetLevelResult := by
  unfold Obligations.GetLevelResult
  refine ⟨fun s hin => ?_, fun s v rest hs => ?_, fun s hout => ?_⟩
  · rw [exec_getLevel_of_input hin, afterRead_eq]
  · exact ⟨nextAnswer_of_script_cons hs, dropAnswer_of_script_cons hs⟩
  · exact exec_getLevel_of_output hout

end Sys2Proof.Machine
end

section
/-! The host command `ACQUIRE` (spec/40_acquire_host_interface.md R102): what it answers while idle and while busy,
and the obligation O18 from it. -/

namespace Sys2Proof.Machine

/-! ### `ACQUIRE` and `START` -/

theorem exec_acquire (s : State) : exec .acquire s = execAcquire s := rfl

theorem exec_start (s : State) : exec .start s = execStart s := rfl

theorem execAcquire_of_idle {s : State} (h : s.ph = .idle) :
    execAcquire s = .next { clearScratch (clearOutcome s) with ph := .start } := by
  rw [execAcquire, if_pos h]

theorem execAcquire_of_busy {s : State} (h : s.ph ≠ .idle) :
    execAcquire s = .refused .acquireWhileBusy := by
  rw [execAcquire, if_neg h]

/-- The first call of `START` is `SetLevel(LOW)`, outside its contract in input mode (R45). -/
theorem execStart_of_input {s : State} (h : s.dir = .input) : execStart s = .fault .setLevelInInput := by
  rw [execStart, setLevel_of_input .low h, andThen_fault]

/-! ### The obligation -/

/-- Settles O18, by the phase the command finds; it keeps `DIR`, so in input mode the first call of `START` faults. -/
theorem acquireResult : Obligations.AcquireResult := by
  unfold Obligations.AcquireResult
  refine ⟨fun s hidle => ?_, fun s hbusy => ?_, fun s hidle hin => ?_⟩
  · rw [exec_acquire, execAcquire_of_idle hidle]
    rfl
  · rw [exec_acquire, execAcquire_of_busy hbusy]
  · have hdir : (clearScratch (clearOutcome s)).dir = .input := by simp [hin]
    refine ⟨_, execAcquire_of_idle hidle, ?_⟩
    rw [exec_start]
    exact execStart_of_input hdir

end Sys2Proof.Machine
end

section
/-! The operations of the handshake sequencer that read no line (spec/41_handshake_sequencer.md R112, R118): the
states that `START` in output mode and `RECOVER` answer, and the obligations O22 and O29 from them. -/

namespace Sys2Proof.Machine

/-! ### `START` -/

/-- In output mode both `SetLevel` calls are within their contract (R45): the first keeps the direction. -/
theorem execStart_of_output {s : State} (h : s.dir = .output) :
    execStart s = .next (leaveWait .ackLow (setDirection .input (record (.setLevel .high)
      { delayUs startLowUs (record (.setLevel .low) { s with out := .low }) with out := .high }))) := by
  have hrelease : (delayUs startLowUs (record (.setLevel .low) { s with out := .low })).dir = .output := by simp [h]
  rw [execStart, setLevel_of_output .low h, andThen_next, setLevel_of_output .high hrelease, andThen_next]

/-! ### `RECOVER` -/

/-- The operation of phase `FAIL` is the failure report (R206). -/
theorem exec_recover (s : State) : exec .recover s = reportFailure s := rfl

/-- Restoring the line appends its two calls in one piece. -/
theorem restoredLine_eq (s : State) :
    record (.setLevel .high) { setDirection .output s with out := .high } =
      { s with dir := .output, out := .high, trace := s.trace ++ [.setDirection .output, .setLevel .high] } := by
  simp [record, setDirection]

/-! ### The obligations -/

/-- Settles O22: the four calls of the pulse, appended one at a time, are the list of R112. -/
theorem startResult : Obligations.StartResult := by
  unfold Obligations.StartResult
  intro s hout
  rw [exec_start, execStart_of_output hout]
  simp [leaveWait, setDirection, delayUs, record, startLowUs]

/-- Settles O29: the failure report on the restored line. -/
theorem recoverResult : Obligations.RecoverResult := by
  unfold Obligations.RecoverResult
  intro s
  rw [exec_recover, reportFailure_eq, restoredLine_eq]
  rfl

end Sys2Proof.Machine
end

section
/-! The bit-sample detector's `BITSAMPLE` and the shift of the frame assembler (spec/42_bit_sample_detector.md R134,
spec/43_frame_assembler.md R146): the shift in numbers, the state the operation answers in input mode, and the
obligation O26 from them. -/

namespace Sys2Proof.Machine

/-! ### The shift (R146) -/

/-- `(b << 1) | bit` in numbers: the vacated bit 0 takes the new bit, and `mod 256` drops the old bit 7. -/
theorem shiftByte_toNat (b : Byte) (bit : BitVec 1) : (shiftByte b bit).toNat = (2 * b.toNat + bit.toNat) % 256 := by
  have hor : b.toNat <<< 1 ||| bit.toNat = 2 * b.toNat + bit.toNat := by
    rw [← Nat.shiftLeft_add_eq_or_of_lt bit.isLt, Nat.shiftLeft_eq, Nat.mul_comm, Nat.pow_one]
  rw [shiftByte, BitVec.toNat_or, BitVec.toNat_shiftLeft, BitVec.toNat_setWidth, ← Nat.or_mod_two_pow, hor]

theorem levelBit_toNat (v : Level) : (levelBit v).toNat = if v = .high then 1 else 0 := by
  cases v <;> rfl

/-- The byte that bit number `k` belongs to is shifted. -/
theorem frameByte_shiftFrame_self (f : Frame) {k : Nat} (bit : BitVec 1) (h : k < 40) :
    frameByte (shiftFrame f k bit) (k / 8) = shiftByte (frameByte f (k / 8)) bit :=
  frameByte_setFrameByte_self f _ (by omega)

/-- The other bytes stay. -/
theorem frameByte_shiftFrame_ne (f : Frame) {k j : Nat} (bit : BitVec 1) (h : j ≠ k / 8) :
    frameByte (shiftFrame f k bit) j = frameByte f j :=
  frameByte_setFrameByte_ne f _ h.symm

/-! ### `BITSAMPLE` -/

theorem exec_bitSample (s : State) : exec .bitSample s = execBitSample s := rfl

/-- Using up an answer counts no bit. -/
@[simp] theorem dropAnswer_bitcnt (s : State) : (dropAnswer s).bitcnt = s.bitcnt := by
  cases h : s.script <;> simp [dropAnswer, h]

/-- A read after a delay, whole: the delay does not reach the answer (R44), so it uses up the same one. -/
theorem afterRead_delayUs_eq (n : Nat) (s : State) :
    afterRead (delayUs n s) =
      { dropAnswer s with
          nread := s.nread + 1, tUs := s.tUs + n,
          trace := s.trace ++ [.delayUs n, .getLevel (nextAnswer s)] } := by
  rw [afterRead_eq, nextAnswer_delayUs]
  cases h : s.script <;> simp [dropAnswer, delayUs, record, h]

/-- In input mode the read is within its contract (R45), and below 40 bits the frame has room for the sample. -/
theorem execBitSample_of_input {s : State} (hin : s.dir = .input) (hroom : s.bitcnt < 40) :
    execBitSample s = .next (leaveWait (if s.bitcnt + 1 = 40 then .endWait else .bitLow)
      (shiftIn (levelBit (nextAnswer s)) (afterRead (delayUs sampleUs s)))) := by
  have hdelayed : (delayUs sampleUs s).dir = .input := by simp [hin]
  rw [execBitSample, getLevel_of_input hdelayed, andThen_next]
  simp [takeSample, nbitsFrame, hroom]

/-! ### The obligation -/

/-- Settles O26: the frame the operation answers is the shifted one, and the rest is the read after the window. -/
theorem bitSampleResult : Obligations.BitSampleResult := by
  unfold Obligations.BitSampleResult
  rintro s _ hin hroom rfl
  refine ⟨_, execBitSample_of_input hin hroom, ?_, fun j hj => ?_, ?_⟩
  · simp [frameByte_shiftFrame_self _ _ hroom, shiftByte_toNat, levelBit_toNat]
  · simp [frameByte_shiftFrame_ne _ _ hj]
  · simp [leaveWait, shiftIn, afterRead_delayUs_eq, sampleUs]

end Sys2Proof.Machine
end

section
/-! The checksum validator (spec/44_checksum_validator.md R155 to R158): which frames are valid, what `VALIDATE`
answers on each branch, and the obligations O27 and O42 from it. -/

namespace Sys2Proof.Machine

/-! ### The valid frames -/

theorem payloadCheck_toNat (b0 b1 b2 b3 : Byte) :
    (payloadCheck b0 b1 b2 b3).toNat = (b0.toNat + b1.toNat + b2.toNat + b3.toNat) % 256 :=
  BitVec.toNat_ofNat _ 8

/-- A frame is valid when its fifth byte is the check of the other four (R155). -/
theorem frameValid_iff {f : Frame} : frameValid f = true ↔ f.b4 = payloadCheck f.b0 f.b1 f.b2 f.b3 := by
  rw [frameValid, beq_iff_eq, eq_comm]

/-- Validity in numbers (R155, R157). -/
theorem frameValid_iff_sum {f : Frame} :
    frameValid f = true ↔ (f.b0.toNat + f.b1.toNat + f.b2.toNat + f.b3.toNat) % 256 = f.b4.toNat := by
  rw [frameValid_iff, ← BitVec.toNat_inj, payloadCheck_toNat, eq_comm]

theorem frameValid_eq_false_iff_sum {f : Frame} :
    frameValid f = false ↔ (f.b0.toNat + f.b1.toNat + f.b2.toNat + f.b3.toNat) % 256 ≠ f.b4.toNat := by
  rw [← Bool.not_eq_true, frameValid_iff_sum]

/-! ### `VALIDATE` -/

theorem exec_validate (s : State) : exec .validate s = execValidate s := rfl

theorem execValidate_of_valid {s : State} (h : frameValid s.frame = true) :
    execValidate s = .next { s with ph := .decode } := by
  rw [execValidate, if_pos h]

theorem execValidate_of_invalid {s : State} (h : frameValid s.frame = false) :
    execValidate s = .next (toIdle { s with tag := .checksumMismatch }) := by
  rw [execValidate, if_neg (Bool.eq_false_iff.1 h)]

/-! ### The obligations -/

/-- Settles O42: a valid fifth byte is the check. The sum plus one mod 256 is another byte, as 256 does not divide
one, and the check is the one byte that passes. -/
theorem checksumProperty : Obligations.ChecksumProperty := by
  unfold Obligations.ChecksumProperty
  intro b0 b1 b2 b3
  refine ⟨fun c hc => frameValid_iff_sum.2 hc.symm, fun c hc => ?_, ?_⟩
  · rw [frameValid_eq_false_iff_sum]
    dsimp only
    omega
  · exact ⟨payloadCheck b0 b1 b2 b3, frameValid_iff.2 rfl, fun c' hvalid => frameValid_iff.1 hvalid⟩

/-- Settles O27, by whether the frame is valid; the mismatch branch is the return to `IDLE` with the tag written. -/
theorem validateResult : Obligations.ValidateResult := by
  unfold Obligations.ValidateResult
  refine fun s => ⟨fun hsum => ?_, fun hsum => ?_⟩
  · rw [exec_validate, execValidate_of_valid (frameValid_iff_sum.2 hsum)]
  · rw [exec_validate, execValidate_of_invalid (frameValid_eq_false_iff_sum.2 hsum)]
    rfl

end Sys2Proof.Machine
end

section
/-! The humidity and temperature decoder (spec/45_decoder.md R165, R170): the three formulas in numbers, the state
`DECODE` answers, and the obligations O45 and O28 from them. -/

namespace Sys2Proof.Machine

/-! ### The three fields of a Reading (R165, R166) -/

/-- `(hi << 8) | lo` in `w + 8` bits, for a `hi` of at most `w` bits: nothing is shifted out, and as the two fields
do not overlap, `|` adds them (R166). -/
theorem shiftLeft_or_toNat {w : Nat} (hi lo : Byte) (hfits : hi.toNat < 2 ^ w) :
    (hi.setWidth (w + 8) <<< 8 ||| lo.setWidth (w + 8)).toNat = 256 * hi.toNat + lo.toNat := by
  have hroom : 256 * hi.toNat + lo.toNat < 2 ^ (w + 8) := by
    rw [Nat.pow_add]
    omega
  rw [← BitVec.setWidth_append_eq_shiftLeft_setWidth_or, BitVec.toNat_setWidth, BitVec.toNat_append,
    ← Nat.shiftLeft_add_eq_or_of_lt lo.isLt, Nat.shiftLeft_eq, Nat.mul_comm, Nat.mod_eq_of_lt hroom]

theorem humidityOf_toNat (b0 b1 : Byte) : (humidityOf b0 b1).toNat = 256 * b0.toNat + b1.toNat :=
  shiftLeft_or_toNat (w := 8) b0 b1 b0.isLt

/-- `& 0x80` isolates bit 7 (R166). -/
theorem and_signMask_eq_zero_iff (b : Byte) : b &&& 0x80#8 = 0#8 ↔ b.toNat < 128 := by
  have hbit : b &&& 0x80#8 = if b.msb then 0x80#8 else 0#8 := BitVec.and_twoPow b 7
  rw [hbit, BitVec.msb_eq_decide]
  simp

/-- `& 0x7F` clears bit 7 and keeps bits 6:0 (R166, R167). -/
theorem and_magnitudeMask_toNat (b : Byte) : (b &&& 0x7F#8).toNat = b.toNat % 128 :=
  Nat.and_two_pow_sub_one_eq_mod b.toNat 7

theorem signOf_toNat (b2 : Byte) : (signOf b2).toNat = b2.toNat / 128 := by
  have hbyte := b2.isLt
  by_cases hclear : b2 &&& 0x80#8 = 0#8
  · have hlow := (and_signMask_eq_zero_iff b2).1 hclear
    rw [signOf, if_pos hclear, Nat.div_eq_of_lt hlow, BitVec.toNat_ofNat]
  · have hhigh := mt (and_signMask_eq_zero_iff b2).2 hclear
    rw [signOf, if_neg hclear, BitVec.toNat_ofNat]
    omega

theorem magnitudeOf_toNat (b2 b3 : Byte) : (magnitudeOf b2 b3).toNat = 256 * (b2.toNat % 128) + b3.toNat := by
  have hmask := and_magnitudeMask_toNat b2
  have hfits : (b2 &&& 0x7F#8).toNat < 2 ^ 7 := hmask ▸ Nat.mod_lt _ (by decide)
  rw [← hmask]
  exact shiftLeft_or_toNat (w := 7) _ b3 hfits

/-! ### `DECODE` -/

theorem exec_decodeReading (s : State) :
    exec .decodeReading s =
      .next (toIdle (emitReading (readingOf s.frame.b0 s.frame.b1 s.frame.b2 s.frame.b3) s)) := rfl

/-! ### The obligations -/

/-- Settles O45, field by field. -/
theorem decodeFormulas : Obligations.DecodeFormulas := by
  unfold Obligations.DecodeFormulas
  intro b0 b1 b2 b3
  exact ⟨humidityOf_toNat b0 b1, signOf_toNat b2, magnitudeOf_toNat b2 b3⟩

/-- Settles O28: the Reading emitted is that of the bytes before they are cleared, so O45 gives its fields. -/
theorem decodeResult : Obligations.DecodeResult := by
  unfold Obligations.DecodeResult
  intro s
  obtain ⟨hhum, hsign, hmag⟩ := decodeFormulas s.frame.b0 s.frame.b1 s.frame.b2 s.frame.b3
  exact ⟨_, exec_decodeReading s, hhum, hsign, hmag, rfl⟩

end Sys2Proof.Machine
end

section
/-! Code words (spec/30_encoding.md R76 to R84): the two readings of a one-bit operand, the fields of a DRV word, and
the obligations O1 to O4, that `decode` and `encode` are inverse to each other. -/

namespace Sys2Proof

/-! ### Operands of one bit (R77) -/

@[simp] theorem levelOfBit_levelBit (v : Level) : levelOfBit (levelBit v) = v := by
  cases v <;> rfl

@[simp] theorem directionOfBit_directionBit (d : Direction) : directionOfBit (directionBit d) = d := by
  cases d <;> rfl

@[simp] theorem levelBit_levelOfBit (b : BitVec 1) : levelBit (levelOfBit b) = b := by
  revert b; decide

@[simp] theorem directionBit_directionOfBit (b : BitVec 1) : directionBit (directionOfBit b) = b := by
  revert b; decide

/-! ### The fields of a DRV word (R76, R83) -/

/-- The operand bit of a driver word is the lowest bit of its argument. -/
theorem drvBit_eq (w : BitVec 12) : drvBit w = (drvArg w).setWidth 1 := by
  apply BitVec.eq_of_toNat_eq
  simp only [drvBit, drvArg, BitVec.extractLsb'_toNat, BitVec.toNat_setWidth]
  omega

@[simp] theorem drvBit_drvWord (op : BitVec 2) (b : BitVec 1) : drvBit (drvWord op (b.setWidth 10)) = b := by
  rw [drvBit_eq, Machine.drvArg_drvWord, BitVec.setWidth_setWidth_of_le _ (by decide), BitVec.setWidth_eq]

/-- An operand of one bit keeps the must-be-zero bits 0. -/
theorem oneBitArg_le (b : BitVec 1) : b.toNat % 1024 ≤ 1 := by
  have := b.isLt
  omega

/-- With the must-be-zero bits 0 the operand bit is the whole argument. -/
theorem drvBit_setWidth {w : BitVec 12} (h : (drvArg w).toNat < 2) : (drvBit w).setWidth 10 = drvArg w := by
  rw [drvBit_eq]
  apply BitVec.eq_of_toNat_eq
  simp only [BitVec.toNat_setWidth]
  omega

/-- The word of a named operation field and its argument is the word itself. -/
theorem drvWord_of_drvOp {w : BitVec 12} {op : BitVec 2} (h : (drvOp w).toNat = op.toNat) :
    drvWord op (drvArg w) = w := by
  rw [← BitVec.eq_of_toNat_eq h, Machine.drvWord_fields]

/-! ### `encode` after `decode`, by format -/

theorem encode_of_decodeHostCmd {c : BitVec 2} {i : Instr} (h : decodeHostCmd c = .ok i) : encode i = .hostcmd c := by
  rcases Machine.hostWord_cases c with rfl | rfl | rfl | rfl <;> cases h <;> rfl

theorem encode_of_decodePhase {c : BitVec 4} {i : Instr} (h : decodePhase c = .ok i) : encode i = .phase c := by
  unfold decodePhase at h
  split at h <;> cases h
  all_goals next hc => exact congrArg CodeWord.phase (BitVec.eq_of_toNat_eq hc.symm)

/-- The two calls with a one-bit operand and `GetLevel` have no other word, as their must-be-zero bits are 0. -/
theorem encode_of_decodeDrv {w : BitVec 12} {i : Instr} (h : decodeDrv w = .ok i) : encode i = .drv w := by
  unfold decodeDrv at h
  split at h
  · next hop =>
    split at h <;> cases h
    next harg => rw [encode, directionBit_directionOfBit, drvBit_setWidth harg, drvWord_of_drvOp hop]
  · next hop =>
    split at h <;> cases h
    next harg => rw [encode, levelBit_levelOfBit, drvBit_setWidth harg, drvWord_of_drvOp hop]
  · next hop =>
    split at h <;> cases h
    next harg => rw [encode, ← BitVec.eq_of_toNat_eq (x := drvArg w) (y := 0#10) harg, drvWord_of_drvOp hop]
  · next h0 h1 h2 =>
    cases h
    have hop : (drvOp w).toNat = (0b11#2).toNat := by
      have := (drvOp w).isLt
      simp only [imp_false] at h0 h1 h2
      change (drvOp w).toNat = 3
      omega
    rw [encode, BitVec.ofNat_toNat, BitVec.setWidth_eq, drvWord_of_drvOp hop]

/-! ### The obligations -/

/-- Settles O1, operation by operation: a driver word gives back the fields it was put together from, and the
argument of a well-formed delay fits its ten bits. -/
theorem decodeOfEncode : Obligations.DecodeOfEncode := by
  unfold Obligations.DecodeOfEncode
  intro i hwf
  cases i with
  | acquire | abort | start | ackLow | ackHigh | bitLow | bitHigh | bitSample | endWait | validate | decodeReading
  | recover => rfl
  | setDirection d => simp [encode, decode, decodeDrv, oneBitArg_le]
  | setLevel v => simp [encode, decode, decodeDrv, oneBitArg_le]
  | getLevel => simp [encode, decode, decodeDrv]
  | delayUs n =>
    have hn : n ≤ 1023 := of_decide_eq_true hwf
    have hfits : n % 1024 = n := Nat.mod_eq_of_lt (by omega)
    simp [encode, decode, decodeDrv, hfits]

/-- Settles O2, format by format. -/
theorem encodeOfDecode : Obligations.EncodeOfDecode := by
  unfold Obligations.EncodeOfDecode
  intro w i h
  cases w with
  | hostcmd c => exact encode_of_decodeHostCmd h
  | phase c => exact encode_of_decodePhase h
  | drv d => exact encode_of_decodeDrv h

/-- Settles O3, word by word. -/
theorem printedWordsDecode : Obligations.PrintedWordsDecode := by
  unfold Obligations.PrintedWordsDecode
  decide

/-- Settles O4, phase by phase. -/
theorem phaseSelectsOperation : Obligations.PhaseSelectsOperation := by
  unfold Obligations.PhaseSelectsOperation
  decide

end Sys2Proof
end

section
/-! One step (spec/10_state.md R15, spec/70_reset_and_hazards.md R230, R241): what stands at the port decides what is
run, on the state with the port entry taken. With it the obligations about single steps: O5 to O9 and O19 to O21. -/

namespace Sys2Proof.Machine

/-! ### The port entry a step takes -/

/-- `s` with its port entry, if it has one, taken. -/
def takePort (s : State) : State := { s with port := s.port.tail }

@[simp] theorem takePort_fields (s : State) :
    (takePort s).frame = s.frame ∧ (takePort s).ph = s.ph ∧ (takePort s).bitcnt = s.bitcnt ∧
      (takePort s).spin = s.spin ∧ (takePort s).cause = s.cause ∧ (takePort s).tag = s.tag ∧
      (takePort s).hum = s.hum ∧ (takePort s).tsign = s.tsign ∧ (takePort s).tmag = s.tmag ∧
      (takePort s).dir = s.dir ∧ (takePort s).out = s.out ∧ (takePort s).trace = s.trace ∧
      (takePort s).tUs = s.tUs ∧ (takePort s).nread = s.nread ∧ (takePort s).cfg = s.cfg ∧
      (takePort s).script = s.script ∧ (takePort s).oracle = s.oracle ∧ (takePort s).port = s.port.tail :=
  ⟨rfl, rfl, rfl, rfl, rfl, rfl, rfl, rfl, rfl, rfl, rfl, rfl, rfl, rfl, rfl, rfl, rfl, rfl⟩

@[simp] theorem nextAnswer_takePort (s : State) : nextAnswer (takePort s) = nextAnswer s := rfl

theorem takePort_of_nil {s : State} (h : s.port = []) : takePort s = s := by
  cases s
  cases h
  rfl

theorem takePort_of_cons {s : State} {w : PortWord} {rest : List PortWord} (h : s.port = w :: rest) :
    takePort s = { s with port := rest } := by
  simp [takePort, h]

/-! ### The operation of a phase (R80) -/

/-- The operation a phase selects; `IDLE` selects none (R101). -/
def phaseOperation : Phase → Option Instr
  | .idle => none
  | .start => some .start
  | .ackLow => some .ackLow
  | .ackHigh => some .ackHigh
  | .bitLow => some .bitLow
  | .bitHigh => some .bitHigh
  | .bitSample => some .bitSample
  | .endWait => some .endWait
  | .validate => some .validate
  | .decode => some .decodeReading
  | .fail => some .recover

/-- The decoder reads a phase's code as `phaseOperation` says. -/
theorem decode_phaseCode_eq_ok_iff {p : Phase} {i : Instr} :
    decode (.phase (phaseCode p)) = .ok i ↔ phaseOperation p = some i := by
  cases p with
  | idle => exact ⟨nofun, nofun⟩
  | start | ackLow | ackHigh | bitLow | bitHigh | bitSample | endWait | validate | decode | fail =>
    exact ⟨fun h => by cases h; rfl, fun h => by cases h; rfl⟩

/-- Only the code of `IDLE` selects no operation. -/
theorem decode_phaseCode_eq_error_iff {p : Phase} {e : DecodeError} :
    decode (.phase (phaseCode p)) = .error e ↔ p = .idle ∧ e = .noOperation := by
  cases p with
  | idle => exact ⟨fun h => by cases h; exact ⟨rfl, rfl⟩, fun ⟨_, he⟩ => by cases he; rfl⟩
  | start | ackLow | ackHigh | bitLow | bitHigh | bitSample | endWait | validate | decode | fail =>
    exact ⟨nofun, nofun⟩

/-! ### What a word at the port does -/

theorem fetch_of_drv {s : State} {w : BitVec 12} {rest : List PortWord} (h : s.port = .drv w :: rest) :
    fetch s = (some (.drv w), takePort s) := by
  simp [fetch, takePort, h]

theorem fetch_of_host {s : State} {c : BitVec 2} {rest : List PortWord} (h : s.port = .host c :: rest)
    (hc : c ≠ 0#2) : fetch s = (some (.hostcmd c), takePort s) := by
  simp [fetch, takePort, h, hc]

theorem fetch_of_reset {s : State} {rest : List PortWord} (h : s.port = .reset :: rest) :
    fetch s = (none, takePort s) := by
  simp [fetch, takePort, h]

/-- With no command presented the phase register selects (R15). -/
def NoCommand (s : State) : Prop := s.port = [] ∨ ∃ rest, s.port = .host 0#2 :: rest

theorem fetch_of_noCommandPresented {s : State} (h : NoCommand s) :
    fetch s = (some (.phase (phaseCode s.ph)), takePort s) := by
  obtain hnil | ⟨rest, hport⟩ := h
  · rw [fetch_of_nil hnil, takePort_of_nil hnil]
  · rw [fetch_of_noCommand hport, takePort_of_cons hport]

/-- What a step fetches, by the entry at the head of the port. -/
theorem port_cases (s : State) :
    NoCommand s ∨ (∃ c rest, s.port = .host c :: rest ∧ c ≠ 0#2) ∨ (∃ w rest, s.port = .drv w :: rest) ∨
      ∃ rest, s.port = .reset :: rest := by
  rcases hport : s.port with _ | ⟨w, rest⟩
  · exact .inl (.inl hport)
  · cases w with
    | host c =>
      by_cases hc : c = 0#2
      · exact .inl (.inr ⟨rest, hc ▸ hport⟩)
      · exact .inr (.inl ⟨c, rest, rfl, hc⟩)
    | drv w => exact .inr (.inr (.inl ⟨w, rest, rfl⟩))
    | reset => exact .inr (.inr (.inr ⟨rest, rfl⟩))

/-! ### Steps -/

theorem step_of_fetch {s t : State} {w : CodeWord} (h : fetch s = (some w, t)) : step s = runWord w t := by
  rw [step, h]

theorem step_of_decode {s t : State} {w : CodeWord} {i : Instr} (h : fetch s = (some w, t))
    (hw : decode w = .ok i) : step s = exec i t := by
  rw [step_of_fetch h, runWord, hw]

theorem step_of_decode_error {s t : State} {w : CodeWord} {e : DecodeError} (h : fetch s = (some w, t))
    (hw : decode w = .error e) : step s = noOperation e t := by
  rw [step_of_fetch h, runWord, hw]

theorem step_of_reset {s : State} {rest : List PortWord} (h : s.port = .reset :: rest) :
    step s = .next (resetEvent (takePort s)) := by
  rw [step, fetch_of_reset h]

/-- A busy engine with no command presented runs the operation of its phase. -/
theorem step_of_phase {s : State} {i : Instr} (h : NoCommand s) (hi : phaseOperation s.ph = some i) :
    step s = exec i (takePort s) :=
  step_of_decode (fetch_of_noCommandPresented h) (decode_phaseCode_eq_ok_iff.2 hi)

theorem step_of_idle {s : State} (h : NoCommand s) (hi : s.ph = .idle) : step s = .next (takePort s) :=
  step_of_decode_error (fetch_of_noCommandPresented h) (decode_phaseCode_eq_error_iff.2 ⟨hi, rfl⟩)

/-- Of the words that select no operation only "no command" and `IDLE` answer a next state (R84, R101). -/
theorem noOperation_eq_next {e : DecodeError} {s t : State} (h : noOperation e s = .next t) :
    t = s ∧ (e = .noCommand ∨ e = .noOperation) := by
  cases e with
  | noCommand => cases h; exact ⟨rfl, .inl rfl⟩
  | noOperation => cases h; exact ⟨rfl, .inr rfl⟩
  | reservedHostCmd | reservedPhase | reservedDrv => cases h

theorem decodeDrv_error {w : BitVec 12} {e : DecodeError} (h : decodeDrv w = .error e) : e = .reservedDrv := by
  unfold decodeDrv at h
  split at h
  · split at h <;> cases h; rfl
  · split at h <;> cases h; rfl
  · split at h <;> cases h; rfl
  · cases h

theorem decodeHostCmd_error {c : BitVec 2} {e : DecodeError} (h : decodeHostCmd c = .error e) (hc : c ≠ 0#2) :
    c = 3#2 ∧ e = .reservedHostCmd := by
  rcases hostWord_cases c with rfl | rfl | rfl | rfl
  · exact absurd rfl hc
  · cases h
  · cases h
  · cases h; exact ⟨rfl, rfl⟩

/-- All that a step which answers can have done: the reset, nothing while idle, or the operation of the word fetched. -/
theorem step_cases {s t : State} (h : step s = .next t) :
    ((∃ rest, s.port = .reset :: rest) ∧ t = resetEvent (takePort s)) ∨
      (NoCommand s ∧ s.ph = .idle ∧ t = takePort s) ∨
      ∃ w i, fetch s = (some w, takePort s) ∧ decode w = .ok i ∧ exec i (takePort s) = .next t := by
  rcases port_cases s with hno | ⟨c, rest, hport, hc⟩ | ⟨w, rest, hport⟩ | ⟨rest, hport⟩
  · have hfetch := fetch_of_noCommandPresented hno
    cases hw : decode (.phase (phaseCode s.ph)) with
    | ok i => exact .inr (.inr ⟨_, i, hfetch, hw, step_of_decode hfetch hw ▸ h⟩)
    | error e =>
      rw [step_of_decode_error hfetch hw] at h
      exact .inr (.inl ⟨hno, (decode_phaseCode_eq_error_iff.1 hw).1, (noOperation_eq_next h).1⟩)
  · have hfetch := fetch_of_host hport hc
    cases hw : decode (.hostcmd c) with
    | ok i => exact .inr (.inr ⟨_, i, hfetch, hw, step_of_decode hfetch hw ▸ h⟩)
    | error e =>
      obtain ⟨-, rfl⟩ := decodeHostCmd_error hw hc
      rw [step_of_decode_error hfetch hw] at h
      cases h
  · have hfetch := fetch_of_drv hport
    cases hw : decode (.drv w) with
    | ok i => exact .inr (.inr ⟨_, i, hfetch, hw, step_of_decode hfetch hw ▸ h⟩)
    | error e =>
      cases decodeDrv_error hw
      rw [step_of_decode_error hfetch hw] at h
      cases h
  · rw [step_of_reset hport] at h
    cases h
    exact .inl ⟨⟨rest, hport⟩, rfl⟩

/-! ### `ABORT` -/

theorem exec_abort (s : State) : exec .abort s = execAbort s := rfl

theorem execAbort_of_idle {s : State} (h : s.ph = .idle) : execAbort s = .next s := by
  rw [execAbort, if_pos h]

theorem execAbort_of_busy {s : State} (h : s.ph ≠ .idle) :
    execAbort s =
      .next (toIdle (clearOutcome (record (.setLevel .high) { setDirection .output s with out := .high }))) := by
  rw [execAbort, if_neg h, restoreLine_eq, andThen_next]

/-! ### Reserved words (R84) -/

theorem decodePhase_reserved (c : BitVec 4) (h : 11 ≤ c.toNat) : decodePhase c = .error .reservedPhase := by
  revert c; decide

/-- A non-zero must-be-zero bit: in an operand of one bit, or in the argument of `GetLevel`. -/
theorem decodeDrv_reserved {w : BitVec 12}
    (h : ((drvOp w).toNat = 0 ∨ (drvOp w).toNat = 1) ∧ 2 ≤ (drvArg w).toNat ∨
      (drvOp w).toNat = 2 ∧ (drvArg w).toNat ≠ 0) : decodeDrv w = .error .reservedDrv := by
  unfold decodeDrv
  obtain ⟨hop | hop, harg⟩ | ⟨hop, harg⟩ := h
  · rw [hop]; exact if_neg (by omega)
  · rw [hop]; exact if_neg (by omega)
  · rw [hop]; exact if_neg harg

/-! ### The obligations -/

/-- Settles O5, clause by clause: the word is rejected, and the step that fetches it is `noOperation`. -/
theorem reservedWordsFault : Obligations.ReservedWordsFault := by
  unfold Obligations.ReservedWordsFault
  refine ⟨decodePhase_reserved, fun s rest hport => ?_, fun s w rest hport hw => ?_⟩
  · exact step_of_decode_error (fetch_of_host hport (by decide)) rfl
  · exact step_of_decode_error (fetch_of_drv hport) (decodeDrv_reserved hw)

/-- Settles O6, by the entry at the head of the port. -/
theorem stepRunsDecodedInstruction : Obligations.StepRunsDecodedInstruction := by
  unfold Obligations.StepRunsDecodedInstruction
  refine ⟨fun s i _ hport hi => ?_, fun s rest i _ hport hi => ?_, fun s c rest i _ hport hi => ?_,
    fun s w rest i _ hport hi => ?_⟩
  · exact step_of_decode (fetch_of_nil hport) hi
  · exact step_of_decode (fetch_of_noCommand hport) hi
  · have hc : c ≠ 0#2 := by rintro rfl; cases hi
    rw [← takePort_of_cons hport]
    exact step_of_decode (fetch_of_host hport hc) hi
  · rw [← takePort_of_cons hport]
    exact step_of_decode (fetch_of_drv hport) hi

/-- Settles O7: the port is no part of `OUTCOME`. -/
theorem idleEngineWaits : Obligations.IdleEngineWaits := by
  unfold Obligations.IdleEngineWaits
  refine ⟨fun s hidle hport => ?_, fun s rest hidle hport => ⟨?_, rfl⟩⟩
  · rw [step_of_idle (.inl hport) hidle, takePort_of_nil hport]
  · rw [step_of_idle (.inr ⟨rest, hport⟩) hidle, takePort_of_cons hport]

/-- Settles O8. -/
theorem resetEventResult : Obligations.ResetEventResult := by
  unfold Obligations.ResetEventResult
  intro s rest hport
  rw [step_of_reset hport, takePort_of_cons hport]
  rfl

/-- Settles O9: the values stand in `State.reset`. -/
theorem resetStateValues : Obligations.ResetStateValues := by
  unfold Obligations.ResetStateValues
  refine ⟨rfl, rfl, rfl, rfl, ?_, rfl, rfl, rfl, rfl, rfl, rfl, rfl, rfl, rfl⟩
  decide

/-- Settles O19, by the phase the command finds. -/
theorem abortResult : Obligations.AbortResult := by
  unfold Obligations.AbortResult
  refine ⟨fun s hbusy => ?_, fun s hidle => ?_⟩
  · rw [exec_abort, execAbort_of_busy hbusy, restoredLine_eq]
    rfl
  · rw [exec_abort, execAbort_of_idle hidle]

/-- Settles O20: the step is the `ABORT` of an idle engine. -/
theorem lateAbortLeavesOutcome : Obligations.LateAbortLeavesOutcome := by
  unfold Obligations.LateAbortLeavesOutcome
  intro s rest hidle hport
  have hstep : step s = exec .abort (takePort s) := step_of_decode (fetch_of_host hport (by decide)) rfl
  refine ⟨_, ?_, rfl, rfl, rfl⟩
  rw [hstep, exec_abort, takePort_of_cons hport]
  exact execAbort_of_idle hidle

/-- Settles O21: with the history erased, `ABORT` of a busy engine has written what reset writes. -/
theorem resetActsAsAbort : Obligations.ResetActsAsAbort := by
  unfold Obligations.ResetActsAsAbort
  intro s t u rest hbusy hport hreset habort
  have hbusy' : (takePort s).ph ≠ .idle := hbusy
  rw [step_of_reset hport] at hreset
  rw [← takePort_of_cons hport, exec_abort, execAbort_of_busy hbusy', restoredLine_eq] at habort
  cases hreset
  cases habort
  rfl

end Sys2Proof.Machine
end

section
/-! The five waits as one family (spec/41_handshake_sequencer.md R110, R113, R114, R116, spec/42_bit_sample_detector.md
R132, R133): each is a poll under its own level, budget and cause. With it the obligations O23 to O25 and O33. -/

namespace Sys2Proof.Machine

/-! ### The family -/

/-- The five waits of a cycle. -/
inductive Wait where
  | ackLow
  | ackHigh
  | bitLow
  | bitHigh
  | endWait

namespace Wait

/-- The phase a wait is under way in. -/
def phase : Wait → Phase
  | .ackLow => .ackLow
  | .ackHigh => .ackHigh
  | .bitLow => .bitLow
  | .bitHigh => .bitHigh
  | .endWait => .endWait

/-- The operation that makes one poll of a wait. -/
def op : Wait → Instr
  | .ackLow => .ackLow
  | .ackHigh => .ackHigh
  | .bitLow => .bitLow
  | .bitHigh => .bitHigh
  | .endWait => .endWait

/-- The level a wait is for. -/
def target : Wait → Level
  | .ackLow => .low
  | .ackHigh => .high
  | .bitLow => .low
  | .bitHigh => .high
  | .endWait => .low

/-- The budget of a wait (R7). -/
def budget : Wait → Cfg → Budget
  | .ackLow, c => .finite c.ackBudget
  | .ackHigh, c => .finite c.ackBudget
  | .bitLow, c => c.bitBudget
  | .bitHigh, c => c.bitBudget
  | .endWait, c => c.endBudget

/-- The cause a wait that used up its budget fails with (R81). -/
def cause : Wait → Tag
  | .ackLow => .ackTimeout
  | .ackHigh => .ackTimeout2
  | .bitLow => .bitTimeout
  | .bitHigh => .bitTimeout
  | .endWait => .endTimeout

/-- The phase after a wait. -/
def next : Wait → Phase
  | .ackLow => .ackHigh
  | .ackHigh => .bitLow
  | .bitLow => .bitHigh
  | .bitHigh => .bitSample
  | .endWait => .validate

/-- The end of a wait once its level is read: `END` alone restores the line before it (R116). -/
def finish : Wait → State → State
  | .endWait, s => leaveWait .validate (record (.setLevel .high) { setDirection .output s with out := .high })
  | .ackLow, s => leaveWait .ackHigh s
  | .ackHigh, s => leaveWait .bitLow s
  | .bitLow, s => leaveWait .bitHigh s
  | .bitHigh, s => leaveWait .bitSample s

/-- The calls that end a wait. -/
def finishCalls : Wait → List DrvCall
  | .endWait => [.setDirection .output, .setLevel .high]
  | .ackLow => []
  | .ackHigh => []
  | .bitLow => []
  | .bitHigh => []

/-- The end of a wait writes `SPIN` and `PH`, and for `END` the line; nothing else. -/
@[simp] theorem finish_fields (k : Wait) (s : State) :
    (k.finish s).frame = s.frame ∧ (k.finish s).ph = k.next ∧ (k.finish s).bitcnt = s.bitcnt ∧
      (k.finish s).spin = 0 ∧ (k.finish s).cause = s.cause ∧ (k.finish s).tag = s.tag ∧
      (k.finish s).hum = s.hum ∧ (k.finish s).tsign = s.tsign ∧ (k.finish s).tmag = s.tmag ∧
      (k.finish s).trace = s.trace ++ k.finishCalls ∧ (k.finish s).tUs = s.tUs ∧ (k.finish s).nread = s.nread ∧
      (k.finish s).cfg = s.cfg ∧ (k.finish s).script = s.script ∧ (k.finish s).oracle = s.oracle ∧
      (k.finish s).port = s.port := by
  cases k <;> simp [finish, next, finishCalls]

/-! ### One poll of a wait -/

@[simp] theorem phaseOperation_phase (k : Wait) : phaseOperation k.phase = some k.op := by
  cases k <;> rfl

theorem phase_ne_idle (k : Wait) : k.phase ≠ .idle := by
  cases k <;> decide

/-- Each wait's operation is a poll; restoring the line at the end of `END` cannot fail (R46). -/
theorem exec_op (k : Wait) (s : State) :
    exec k.op s = pollThen k.target (k.budget s.cfg) k.cause (fun s => .next (k.finish s)) s := by
  cases k with
  | ackLow | ackHigh | bitLow | bitHigh => rfl
  | endWait => simp only [op, exec, execEnd, restoreLine_eq, andThen_next]; rfl

theorem exec_op_hit (k : Wait) {s : State} (hin : s.dir = .input) (hans : nextAnswer s = k.target) :
    exec k.op s = .next (k.finish (afterRead s)) := by
  rw [exec_op, pollThen_hit hin hans]

theorem exec_op_miss (k : Wait) {s : State} (hin : s.dir = .input) (hans : nextAnswer s ≠ k.target) :
    exec k.op s = .next (countMiss (k.budget s.cfg) k.cause (delayUs pollUs (afterRead s))) := by
  rw [exec_op, pollThen_miss hin hans]

/-- A poll reads first, which is outside the driver's contract in output mode (R45). -/
theorem exec_op_of_output (k : Wait) {s : State} (hout : s.dir = .output) :
    exec k.op s = .fault .getLevelInOutput := by
  rw [exec_op, pollThen, getLevel_of_output hout, andThen_fault]

/-- All that a poll of a wait can have done: the wait is over, or one more miss is counted. -/
theorem exec_op_cases {k : Wait} {s t : State} (h : exec k.op s = .next t) :
    s.dir = .input ∧
      ((nextAnswer s = k.target ∧ t = k.finish (afterRead s)) ∨
        (nextAnswer s ≠ k.target ∧
          t = countMiss (k.budget s.cfg) k.cause (delayUs pollUs (afterRead s)))) := by
  rw [exec_op] at h
  obtain ⟨hin, ⟨hans, hfin⟩ | hmiss⟩ := pollThen_cases h
  · cases hfin
    exact ⟨hin, .inl ⟨hans, rfl⟩⟩
  · exact ⟨hin, .inr hmiss⟩

end Wait

/-- The operations, the five waits as one case. -/
theorem instr_cases {motive : Instr → Prop} (wait : ∀ k : Wait, motive k.op) (acquire : motive .acquire)
    (abort : motive .abort) (start : motive .start) (bitSample : motive .bitSample) (validate : motive .validate)
    (decodeReading : motive .decodeReading) (recover : motive .recover)
    (setDirection : ∀ d, motive (.setDirection d)) (setLevel : ∀ v, motive (.setLevel v))
    (getLevel : motive .getLevel) (delayUs : ∀ n, motive (.delayUs n)) (i : Instr) : motive i := by
  cases i with
  | acquire => exact acquire
  | abort => exact abort
  | start => exact start
  | ackLow => exact wait .ackLow
  | ackHigh => exact wait .ackHigh
  | bitLow => exact wait .bitLow
  | bitHigh => exact wait .bitHigh
  | bitSample => exact bitSample
  | endWait => exact wait .endWait
  | validate => exact validate
  | decodeReading => exact decodeReading
  | recover => exact recover
  | setDirection d => exact setDirection d
  | setLevel v => exact setLevel v
  | getLevel => exact getLevel
  | delayUs n => exact delayUs n

/-! ### A read in one piece -/

theorem afterRead_eq_readThen (s : State) : afterRead s = readThen [] 0 s := by
  cases h : s.script <;> simp [afterRead, readThen, dropAnswer, record, h]

/-- A wrong answer and the delay after it, whole. -/
theorem delayUs_afterRead_eq_readThen (s : State) : delayUs pollUs (afterRead s) = readThen [.delayUs 1] 1 s := by
  cases h : s.script <;> simp [afterRead, readThen, dropAnswer, record, delayUs, pollUs, h]

@[simp] theorem readThen_spin (more : List DrvCall) (us : Nat) (s : State) : (readThen more us s).spin = s.spin := by
  cases h : s.script <;> simp [readThen, dropAnswer, h]

/-! ### A miss, by the budget (R110) -/

theorem countMiss_inf (c : Tag) (s : State) : countMiss .inf c s = s := rfl

theorem countMiss_below {n : Nat} (c : Tag) {s : State} (h : s.spin + 1 ≠ n) :
    countMiss (.finite n) c s = { s with spin := s.spin + 1 } := by
  simp [countMiss, h]

theorem countMiss_last {n : Nat} (c : Tag) {s : State} (h : s.spin + 1 = n) :
    countMiss (.finite n) c s = failWith c { s with spin := s.spin + 1 } := by
  simp [countMiss, h]

/-- One poll of a wait that restores no line is what `PollSpec` spells out. -/
theorem Wait.pollSpec (k : Wait) (hplain : ∀ s, k.finish s = leaveWait k.next s) :
    PollSpec k.op k.target k.budget k.next k.cause := by
  intro s hin
  refine ⟨fun hans => ?_, fun hans hb => ?_, fun n hans hb hspin => ?_, fun n hans hb hspin => ?_⟩
  · rw [k.exec_op_hit hin hans, hplain, afterRead_eq_readThen]
    rfl
  · rw [k.exec_op_miss hin hans, hb, countMiss_inf, delayUs_afterRead_eq_readThen]
  · rw [k.exec_op_miss hin hans, hb, countMiss_below _ (by simpa using hspin), delayUs_afterRead_eq_readThen,
      readThen_spin]
  · rw [k.exec_op_miss hin hans, hb, countMiss_last _ (by simpa using hspin), delayUs_afterRead_eq_readThen,
      readThen_spin]
    rfl

/-! ### The other reads and the delay -/

theorem execBitSample_of_output {s : State} (hout : s.dir = .output) : execBitSample s = .fault .getLevelInOutput := by
  have hdelayed : (delayUs sampleUs s).dir = .output := by simp [hout]
  rw [execBitSample, getLevel_of_output hdelayed, andThen_fault]

theorem exec_delayUs (n : Nat) (s : State) : exec (.delayUs n) s = .next (delayUs n s) := rfl

/-! ### The obligations -/

/-- Settles O23: `START` and `SetLevel` drive the line first, the seven others read it before all else. -/
theorem contractViolationsFault : Obligations.ContractViolationsFault := by
  unfold Obligations.ContractViolationsFault
  refine ⟨fun s hin => ⟨execStart_of_input hin, fun v => setLevel_of_input v hin⟩, fun s hout i hi => ?_⟩
  rcases hi with rfl | rfl | rfl | rfl | rfl | rfl | rfl
  · exact Wait.ackLow.exec_op_of_output hout
  · exact Wait.ackHigh.exec_op_of_output hout
  · exact Wait.bitLow.exec_op_of_output hout
  · exact Wait.bitHigh.exec_op_of_output hout
  · exact execBitSample_of_output hout
  · exact Wait.endWait.exec_op_of_output hout
  · exact exec_getLevel_of_output hout

/-- Settles O24: the four waits before the end restore no line. -/
theorem pollOperations : Obligations.PollOperations := by
  unfold Obligations.PollOperations
  exact ⟨Wait.ackLow.pollSpec fun _ => rfl, Wait.ackHigh.pollSpec fun _ => rfl, Wait.bitLow.pollSpec fun _ => rfl,
    Wait.bitHigh.pollSpec fun _ => rfl⟩

/-- Settles O25, by the level read and what the budget leaves. -/
theorem endResult : Obligations.EndResult := by
  unfold Obligations.EndResult
  intro s hin
  have hmiss (hans : nextAnswer s = .high) : exec .endWait s =
      .next (countMiss s.cfg.endBudget .endTimeout (readThen [.delayUs 1] 1 s)) := by
    rw [← delayUs_afterRead_eq_readThen]
    exact Wait.endWait.exec_op_miss hin (by rw [hans]; decide)
  refine ⟨fun hans => ?_, fun hans hb => ?_, fun n hans hb hspin => ?_, fun n hans hb hspin => ?_⟩
  · have hhit : exec .endWait s = .next (Wait.endWait.finish (afterRead s)) := Wait.endWait.exec_op_hit hin hans
    rw [hhit, afterRead_eq_readThen, Wait.finish, restoredLine_eq]
    simp [leaveWait, readThen]
  · rw [hmiss hans, hb, countMiss_inf]
  · rw [hmiss hans, hb, countMiss_below _ (by simpa using hspin), readThen_spin]
  · rw [hmiss hans, hb, countMiss_last _ (by simpa using hspin), readThen_spin]
    rfl

/-- Settles O33. -/
theorem delayUsResult : Obligations.DelayUsResult := by
  unfold Obligations.DelayUsResult
  intro s n
  rw [exec_delayUs]
  rfl

end Sys2Proof.Machine
end

section
/-! The driver calls an operation makes and the ghosts they account for (spec/10_state.md R30, R31,
spec/20_memory.md R49, R60), and the obligations O15 to O17, O38 and O39 from them. -/

namespace Sys2Proof.Machine

/-! ### The calls of each operation -/

/-- The calls that the operation `i` makes from `s` when it answers, oldest first. -/
def madeCalls (i : Instr) (s : State) : List DrvCall :=
  match i with
  | .acquire => []
  | .abort => if s.ph = .idle then [] else [.setDirection .output, .setLevel .high]
  | .start => [.setLevel .low, .delayUs 1000, .setLevel .high, .setDirection .input]
  | .ackLow => pollCalls .ackLow s
  | .ackHigh => pollCalls .ackHigh s
  | .bitLow => pollCalls .bitLow s
  | .bitHigh => pollCalls .bitHigh s
  | .bitSample => [.delayUs 35, .getLevel (nextAnswer s)]
  | .endWait => pollCalls .endWait s
  | .validate => []
  | .decodeReading => []
  | .recover => [.setDirection .output, .setLevel .high]
  | .setDirection d => [.setDirection d]
  | .setLevel v => [.setLevel v]
  | .getLevel => [.getLevel (nextAnswer s)]
  | .delayUs n => [.delayUs n]
where
  /-- The calls of one poll: the read, and what its answer leads to. -/
  pollCalls (k : Wait) (s : State) : List DrvCall :=
    .getLevel (nextAnswer s) :: if nextAnswer s = k.target then k.finishCalls else [.delayUs 1]

@[simp] theorem madeCalls_wait (k : Wait) (s : State) :
    madeCalls k.op s =
      .getLevel (nextAnswer s) :: if nextAnswer s = k.target then k.finishCalls else [.delayUs 1] := by
  cases k <;> rfl

/-! ### The sums over a trace (R31) -/

@[simp] theorem traceUs_nil : traceUs [] = 0 := rfl

@[simp] theorem traceUs_cons (c : DrvCall) (tr : List DrvCall) : traceUs (c :: tr) = requestedUs c + traceUs tr := rfl

@[simp] theorem traceUs_append (tr more : List DrvCall) : traceUs (tr ++ more) = traceUs tr + traceUs more := by
  simp [traceUs]

@[simp] theorem traceReads_nil : traceReads [] = 0 := rfl

@[simp] theorem traceReads_cons (c : DrvCall) (tr : List DrvCall) :
    traceReads (c :: tr) = readsOf c + traceReads tr := rfl

@[simp] theorem traceReads_append (tr more : List DrvCall) :
    traceReads (tr ++ more) = traceReads tr + traceReads more := by
  simp [traceReads]

/-- The calls that end a wait only restore the line. -/
@[simp] theorem finishCalls_sums (k : Wait) : traceUs k.finishCalls = 0 ∧ traceReads k.finishCalls = 0 := by
  cases k <;> exact ⟨rfl, rfl⟩

/-! ### What an operation leaves of the history and the environment -/

/-- `t` is `s` after the calls `calls`, as far as the ghosts and the environment go: each read has used up one
element of the script. -/
structure After (calls : List DrvCall) (s t : State) : Prop where
  trace : t.trace = s.trace ++ calls
  tUs : t.tUs = s.tUs + traceUs calls
  nread : t.nread = s.nread + traceReads calls
  script : t.script = s.script.drop (traceReads calls)
  cfg : t.cfg = s.cfg
  port : t.port = s.port

/-- Every operation that answers makes its calls, and no other part of it touches the history. -/
theorem exec_after {i : Instr} {s t : State} (h : exec i s = .next t) : After (madeCalls i s) s t := by
  cases i using instr_cases with
  | wait k =>
    obtain ⟨-, ⟨hans, rfl⟩ | ⟨hans, rfl⟩⟩ := Wait.exec_op_cases h
    · constructor <;> simp [hans, requestedUs, readsOf]
    · constructor <;> simp [hans, pollUs, requestedUs, readsOf]
  | acquire =>
    obtain ⟨-, rfl⟩ := execAcquire_cases h
    constructor <;> simp [madeCalls]
  | abort =>
    obtain ⟨hidle, rfl⟩ | ⟨hbusy, rfl⟩ := execAbort_cases h
    · constructor <;> simp [madeCalls, hidle]
    · constructor <;> simp [madeCalls, hbusy, requestedUs, readsOf]
  | start =>
    obtain ⟨-, -, -, -, -, -, -, -, -, -, -, -, htrace, htUs, hnread, hcfg, hscript, -, hport⟩ := execStart_cases h
    constructor <;> simp [madeCalls, requestedUs, readsOf, startLowUs, *]
  | bitSample =>
    obtain ⟨-, -, rfl⟩ := execBitSample_cases h
    constructor <;> simp [madeCalls, requestedUs, readsOf, sampleUs]
  | validate =>
    obtain ⟨-, rfl⟩ | ⟨-, rfl⟩ := execValidate_cases h
    · constructor <;> simp [madeCalls]
    · constructor <;> simp [madeCalls]
  | decodeReading =>
    cases h
    constructor <;> simp [madeCalls]
  | recover =>
    rw [exec_recover, reportFailure_eq] at h
    cases h
    constructor <;> simp [madeCalls, requestedUs, readsOf]
  | setDirection d =>
    cases h
    constructor <;> simp [madeCalls, requestedUs, readsOf]
  | setLevel v =>
    obtain ⟨-, rfl⟩ := setLevel_eq_next_iff.1 h
    constructor <;> simp [madeCalls, requestedUs, readsOf]
  | getLevel =>
    obtain ⟨-, rfl⟩ := execGetLevel_cases h
    constructor <;> simp [madeCalls, requestedUs, readsOf]
  | delayUs n =>
    cases h
    constructor <;> simp [madeCalls, requestedUs, readsOf]

/-- The sums of R31 go on holding after calls that are accounted for. -/
theorem After.ghostsAgree {calls : List DrvCall} {s t : State} (h : After calls s t) (hs : GhostsAgree s) :
    GhostsAgree t := by
  obtain ⟨hus, hreads⟩ := hs
  exact ⟨by rw [h.tUs, h.trace, traceUs_append, hus], by rw [h.nread, h.trace, traceReads_append, hreads]⟩

/-! ### Elapsed time (R60) -/

theorem traceUs_le_elapsedUs (calls : List DrvCall) (draws : List Nat) : traceUs calls ≤ elapsedUs calls draws := by
  induction calls generalizing draws with
  | nil => exact Nat.le_refl 0
  | cons c rest ih =>
    have hrest := ih draws.tail
    rw [traceUs_cons, elapsedUs]
    omega

theorem elapsedUs_nil (calls : List DrvCall) : elapsedUs calls [] = traceUs calls := by
  induction calls with
  | nil => rfl
  | cons c rest ih => rw [elapsedUs, List.tail_nil, ih, traceUs_cons, List.headD_nil, Nat.add_zero]

/-! ### The waveform (R60) -/

/-- A trace is explained when its calls are, each part from the instant it begins at. -/
theorem waveExplains_append (w : Nat → Level) (now : Nat) (tr more : List DrvCall) :
    waveExplains w now (tr ++ more) [] =
      (waveExplains w now tr [] && waveExplains w (now + traceUs tr) more []) := by
  induction tr generalizing now with
  | nil => simp [waveExplains]
  | cons c rest ih =>
    cases c with
    | setDirection d | setLevel v => simp [waveExplains, ih, requestedUs]
    | getLevel v => simp [waveExplains, ih, requestedUs, Bool.and_assoc]
    | delayUs n => simp [waveExplains, ih, requestedUs, Nat.add_assoc]

/-- How long after its start an operation reads the line, if it does (R134, R110). -/
theorem readDelay_of_decode {c : CodeWord} {i : Instr} (h : decode c = .ok i) :
    readDelay c = if i = .bitSample then 35 else 0 := by
  simp [readDelay, h, sampleUs]

/-- An operation makes at most one read, at the instant of its read delay; if the waveform answers it, its calls
are explained. -/
theorem waveExplains_madeCalls {w : Nat → Level} {now : Nat} {i : Instr} {s : State}
    (h : nextAnswer s = w (now + if i = .bitSample then 35 else 0)) :
    waveExplains w now (madeCalls i s) [] = true := by
  cases i using instr_cases with
  | wait k =>
    have hop : k.op ≠ .bitSample := by cases k <;> decide
    have hans : nextAnswer s = w now := by simpa [hop] using h
    have hfinish : ∀ now, waveExplains w now k.finishCalls [] = true := by
      cases k <;> simp [Wait.finishCalls, waveExplains]
    rw [madeCalls_wait]
    split
    · simp [waveExplains, hans, hfinish]
    · simp [waveExplains, hans]
  | abort =>
    rw [madeCalls]
    split <;> simp [waveExplains]
  | bitSample => simpa [madeCalls, waveExplains] using h
  | getLevel => simpa [madeCalls, waveExplains] using h
  | acquire | start | validate | decodeReading | recover | setDirection d | setLevel v | delayUs n =>
    simp [madeCalls, waveExplains]

/-- The script is no part of what a step fetches. -/
theorem fetch_script (s : State) (sc : List Level) : (fetch { s with script := sc }).1 = (fetch s).1 := by
  obtain ⟨fr, ph, bc, sp, ca, tg, hu, ts, tm, di, ou, tr, tu, nr, cf, sc', orc, port⟩ := s
  rcases port with _ | ⟨_ | _ | _, rest⟩
  · rfl
  · simp only [fetch]
    split <;> rfl
  · rfl
  · rfl

theorem readInstant_of_fetch {s u : State} {c : CodeWord} (h : fetch s = (some c, u)) :
    readInstant s = s.tUs + readDelay c := by
  simp [readInstant, h]

theorem readInstant_script (s : State) (sc : List Level) : readInstant { s with script := sc } = readInstant s := by
  simp only [readInstant, fetch_script]

/-! ### The calls in code words (R83) -/

/-- The calls of the sequence and of the host commands are well-formed, and their delays are those of R6. -/
theorem madeCalls_wf {i : Instr} {s : State} (hi : driverCall i = false) :
    ∀ c ∈ madeCalls i s, (callInstr c).wf = true ∧ (c = .delayUs (requestedUs c) → requestedUs c ∈ [1000, 1, 35]) := by
  cases i using instr_cases with
  | wait k =>
    rw [madeCalls_wait]
    split
    · cases k <;> simp [Wait.finishCalls, callInstr, Instr.wf]
    · simp [callInstr, Instr.wf, requestedUs]
  | abort =>
    rw [madeCalls]
    split <;> simp [callInstr, Instr.wf]
  | acquire | start | bitSample | validate | decodeReading | recover =>
    simp [madeCalls, callInstr, Instr.wf, requestedUs]
  | setDirection d | setLevel v | getLevel | delayUs n => cases hi

/-! ### The obligations -/

/-- Settles O15: reset clears the trace with its sums, and an operation accounts for the calls it makes. -/
theorem ghostsFollowTrace : Obligations.GhostsFollowTrace := by
  unfold Obligations.GhostsFollowTrace
  intro s t hs h
  obtain ⟨-, rfl⟩ | ⟨-, -, rfl⟩ | ⟨w, i, -, -, hexec⟩ := step_cases h
  · exact ⟨rfl, rfl⟩
  · exact hs
  · exact (exec_after hexec).ghostsAgree hs

/-- Settles O16: `T` grows by the delays of the calls made, which their elapsed time contains. -/
theorem requestedTimeIsLowerBound : Obligations.RequestedTimeIsLowerBound := by
  unfold Obligations.RequestedTimeIsLowerBound
  intro i s t h
  have hafter := exec_after h
  refine ⟨_, hafter.trace, fun draws => ?_, ?_, ?_⟩
  · rw [hafter.tUs]
    exact Nat.add_le_add_left (traceUs_le_elapsedUs _ draws) _
  · rw [hafter.tUs, elapsedUs_nil]
  · rw [hafter.tUs, traceUs]
    congr 3
    funext c
    cases c <;> rfl

/-- Settles O17: the one read of the step is answered by the waveform at `readInstant`, after a trace that ends at
`T`. -/
theorem simulatorFollowsWaveform : Obligations.SimulatorFollowsWaveform := by
  unfold Obligations.SimulatorFollowsWaveform
  intro w s t hghosts hs h
  obtain ⟨-, rfl⟩ | ⟨-, -, rfl⟩ | ⟨c, i, hfetch, hdecode, hexec⟩ := step_cases h
  · rfl
  · exact hs
  · have hinstant : readInstant s = s.tUs + if i = .bitSample then 35 else 0 := by
      rw [← readDelay_of_decode hdecode, ← readInstant_script s, readInstant_of_fetch hfetch]
    have hanswer : nextAnswer (takePort { s with script := [w (readInstant s)] }) =
        w (s.tUs + if i = .bitSample then 35 else 0) := by
      rw [← hinstant]
      rfl
    have htrace : t.trace = s.trace ++ _ := (exec_after hexec).trace
    rw [htrace, waveExplains_append, hs, Nat.zero_add, ← hghosts.1, waveExplains_madeCalls hanswer]
    rfl

/-- Settles O38. -/
theorem historyAndEnvironment : Obligations.HistoryAndEnvironment := by
  unfold Obligations.HistoryAndEnvironment
  intro i s t h
  have hafter := exec_after h
  exact ⟨hafter.cfg, hafter.port, _, hafter.trace, hafter.nread, hafter.tUs, hafter.script⟩

/-- Settles O39. -/
theorem engineDelays : Obligations.EngineDelays := by
  unfold Obligations.EngineDelays
  intro i s t hi h
  exact ⟨_, (exec_after h).trace, madeCalls_wf hi⟩

end Sys2Proof.Machine
end

section
/-! Who may write what (spec/10_state.md R29, R33): one lemma over all operations, and the obligations O34 to O37 and
O40. -/

namespace Sys2Proof.Machine

/-! ### What the waits may write -/

theorem Wait.op_writers (k : Wait) :
    writesFrame k.op = false ∧ writesSpin k.op = true ∧ writesCause k.op = true ∧ writesTag k.op = false ∧
      writesReading k.op = false ∧ driverCall k.op = false ∧ k.op ≠ .bitSample := by
  cases k <;> decide

/-- Only `END` restores the line (R116). -/
theorem Wait.finish_line (k : Wait) (s : State) :
    (writesDir k.op = false → (k.finish s).dir = s.dir) ∧ (writesOut k.op = false → (k.finish s).out = s.out) := by
  cases k with
  | ackLow | ackHigh | bitLow | bitHigh => exact ⟨fun _ => rfl, fun _ => rfl⟩
  | endWait => exact ⟨nofun, nofun⟩

theorem Wait.next_ne_idle (k : Wait) : k.next ≠ .idle := by
  cases k <;> decide

theorem Wait.finish_ph (k : Wait) (s : State) : (k.finish s).ph = k.next := by
  cases k <;> rfl

theorem leaveWait_ph (p : Phase) (s : State) : (leaveWait p s).ph = p := rfl

/-- A miss stays in the phase or enters `FAIL`. -/
theorem countMiss_ph (b : Budget) (c : Tag) (s : State) :
    (countMiss b c s).ph = s.ph ∨ (countMiss b c s).ph = .fail := by
  obtain ⟨-, h⟩ | ⟨-, h⟩ | ⟨n, -, -, h⟩ := countMiss_cases b c s
  · exact .inl (by rw [h])
  · exact .inr (by rw [h]; rfl)
  · exact .inl (by rw [h])

/-! ### The writers of each register -/

/-- Between `s` and `t` no register has changed that the operation `i` may not write (R33, R17). -/
structure OnlyWrites (i : Instr) (s t : State) : Prop where
  frame : writesFrame i = false → t.frame = s.frame ∧ t.bitcnt = s.bitcnt
  bitcnt : t.bitcnt = s.bitcnt ∨ t.bitcnt = 0 ∨ i = .bitSample ∧ t.bitcnt = s.bitcnt + 1
  spin : writesSpin i = false → t.spin = s.spin
  cause : writesCause i = false → t.cause = s.cause
  tag : writesTag i = false → t.tag = s.tag
  reading : writesReading i = false → t.hum = s.hum ∧ t.tsign = s.tsign ∧ t.tmag = s.tmag
  dir : writesDir i = false → t.dir = s.dir
  out : writesOut i = false → t.out = s.out
  ph : driverCall i = true → t.ph = s.ph

/-- Operation by operation; a register the operation may write is vacuous, any other is seen to stay. -/
theorem exec_onlyWrites {i : Instr} {s t : State} (h : exec i s = .next t) : OnlyWrites i s t := by
  cases i using instr_cases with
  | wait k =>
    obtain ⟨-, ⟨-, rfl⟩ | ⟨-, rfl⟩⟩ := Wait.exec_op_cases h
    · obtain ⟨hdir, hout⟩ := k.finish_line (afterRead s)
      constructor <;> simp_all [k.op_writers]
    · constructor <;> simp [k.op_writers]
  | acquire =>
    obtain ⟨-, rfl⟩ := execAcquire_cases h
    constructor <;> simp [writesFrame, writesSpin, writesCause, writesTag, writesReading, driverCall]
  | abort =>
    obtain ⟨-, rfl⟩ | ⟨-, rfl⟩ := execAbort_cases h
    · constructor <;> simp
    · constructor <;>
        simp [writesFrame, writesSpin, writesCause, writesTag, writesReading, writesDir, writesOut, driverCall]
  | start =>
    obtain ⟨-, hframe, -, hbitcnt, -, hcause, htag, hhum, htsign, htmag, -, -, -⟩ := execStart_cases h
    constructor <;> simp [writesSpin, writesDir, writesOut, driverCall, *]
  | bitSample =>
    obtain ⟨-, -, rfl⟩ := execBitSample_cases h
    constructor <;> simp [writesFrame, writesSpin, driverCall]
  | validate =>
    obtain ⟨-, rfl⟩ | ⟨-, rfl⟩ := execValidate_cases h
    · constructor <;> simp [driverCall]
    · constructor <;> simp [writesFrame, writesSpin, writesCause, writesTag, driverCall]
  | decodeReading =>
    cases h
    constructor <;> simp [writesFrame, writesSpin, writesCause, writesTag, writesReading, driverCall]
  | recover =>
    rw [exec_recover, reportFailure_eq] at h
    cases h
    constructor <;> simp [writesFrame, writesSpin, writesCause, writesTag, writesDir, writesOut, driverCall]
  | setDirection d =>
    cases h
    constructor <;> simp [writesDir]
  | setLevel v =>
    obtain ⟨-, rfl⟩ := setLevel_eq_next_iff.1 h
    constructor <;> simp [writesOut]
  | getLevel =>
    obtain ⟨-, rfl⟩ := execGetLevel_cases h
    constructor <;> simp
  | delayUs n =>
    cases h
    constructor <;> simp

/-- Each operation that returns to `IDLE` does so by `toIdle` (R29). -/
theorem exec_to_idle_clean {i : Instr} {s t : State} (h : exec i s = .next t) (hbusy : s.ph ≠ .idle)
    (hidle : t.ph = .idle) : CleanScratch t := by
  cases i using instr_cases with
  | wait k =>
    obtain ⟨-, ⟨-, rfl⟩ | ⟨-, rfl⟩⟩ := Wait.exec_op_cases h
    · exact absurd (by simpa using hidle) k.next_ne_idle
    · obtain hph | hph := countMiss_ph (k.budget s.cfg) k.cause (delayUs pollUs (afterRead s))
      · exact absurd (by simpa [hph] using hidle) hbusy
      · cases hph.symm.trans hidle
  | acquire =>
    obtain ⟨hs, -⟩ := execAcquire_cases h
    exact absurd hs hbusy
  | abort =>
    obtain ⟨hs, -⟩ | ⟨-, rfl⟩ := execAbort_cases h
    · exact absurd hs hbusy
    · exact toIdle_clean _
  | start =>
    obtain ⟨-, -, hph, -⟩ := execStart_cases h
    cases hph.symm.trans hidle
  | bitSample =>
    obtain ⟨-, -, rfl⟩ := execBitSample_cases h
    rw [leaveWait_ph] at hidle
    split at hidle <;> cases hidle
  | validate =>
    obtain ⟨-, rfl⟩ | ⟨-, rfl⟩ := execValidate_cases h
    · cases hidle
    · exact toIdle_clean _
  | decodeReading =>
    cases h
    exact toIdle_clean _
  | recover =>
    rw [exec_recover, reportFailure_eq] at h
    cases h
    exact toIdle_clean _
  | setDirection d | setLevel v | getLevel | delayUs n =>
    exact absurd (((exec_onlyWrites h).ph rfl).symm.trans hidle) hbusy

/-! ### The obligations -/

/-- Settles O34. -/
theorem frameWriters : Obligations.FrameWriters := by
  unfold Obligations.FrameWriters
  intro i s t h
  exact ⟨(exec_onlyWrites h).frame, (exec_onlyWrites h).bitcnt⟩

/-- Settles O35. -/
theorem spinAndCauseWriters : Obligations.SpinAndCauseWriters := by
  unfold Obligations.SpinAndCauseWriters
  intro i s t h
  exact ⟨(exec_onlyWrites h).spin, (exec_onlyWrites h).cause⟩

/-- Settles O36. -/
theorem outcomeWriters : Obligations.OutcomeWriters := by
  unfold Obligations.OutcomeWriters
  intro i s t h
  exact ⟨(exec_onlyWrites h).tag, (exec_onlyWrites h).reading⟩

/-- Settles O37. -/
theorem lineAndPhaseWriters : Obligations.LineAndPhaseWriters := by
  unfold Obligations.LineAndPhaseWriters
  intro i s t h
  exact ⟨(exec_onlyWrites h).dir, (exec_onlyWrites h).out, (exec_onlyWrites h).ph⟩

/-- Settles O40. -/
theorem returnToIdleClears : Obligations.ReturnToIdleClears := by
  unfold Obligations.ReturnToIdleClears
  intro i s t h hbusy hidle
  exact exec_to_idle_clean h hbusy hidle

end Sys2Proof.Machine
end

section
/-! The bits of the frame, the check and the Reading (spec/43_frame_assembler.md R146 to R148,
spec/44_checksum_validator.md R156, spec/45_decoder.md R165 to R168, spec/30_encoding.md R78), and the obligations O41,
O43, O44 and O46 to O49 from them. -/

namespace Sys2Proof.Machine

/-! ### The bits of the frame -/

/-- The new bit stands at bit 0 and the others one place up (R146). -/
theorem getLsbD_shiftByte (b : Byte) (bit : BitVec 1) {i : Nat} (hi : i < 8) :
    (shiftByte b bit).getLsbD i = if i = 0 then decide (bit = 1#1) else b.getLsbD (i - 1) := by
  have hbit : bit.getLsbD 0 = decide (bit = 1#1) := by revert bit; decide
  by_cases h0 : i = 0
  · subst h0
    simp [shiftByte, ← hbit]
  · have hhigh : ¬ i < 1 := by omega
    have hbeyond : bit.getLsbD i = false := BitVec.getLsbD_of_ge _ _ (by omega)
    simp [shiftByte, h0, hhigh, hi, hbeyond, BitVec.getLsbD_eq_getElem (show i - 1 < 8 by omega)]

/-- `FRAME[39-k]` is bit `7 - k mod 8` of byte `k div 8` (R14, R147). -/
theorem getLsbD_frameWord (f : Frame) {k : Nat} (hk : k < 40) :
    (frameWord f).getLsbD (39 - k) = (frameByte f (k / 8)).getLsbD (7 - k % 8) := by
  have hbyte : k / 8 = 0 ∨ k / 8 = 1 ∨ k / 8 = 2 ∨ k / 8 = 3 ∨ k / 8 = 4 := by omega
  simp only [frameWord, BitVec.getLsbD_append]
  obtain h | h | h | h | h := hbyte
  · rw [if_neg (by omega), h]
    exact congrArg f.b0.getLsbD (by omega)
  · rw [if_pos (by omega), if_neg (by omega), h]
    exact congrArg f.b1.getLsbD (by omega)
  · rw [if_pos (by omega), if_pos (by omega), if_neg (by omega), h]
    exact congrArg f.b2.getLsbD (by omega)
  · rw [if_pos (by omega), if_pos (by omega), if_pos (by omega), if_neg (by omega), h]
    exact congrArg f.b3.getLsbD (by omega)
  · rw [if_pos (by omega), if_pos (by omega), if_pos (by omega), if_pos (by omega), h]
    exact congrArg f.b4.getLsbD (by omega)

/-- A run of bits is shifted in part after part. -/
theorem shiftBits_append (f : Frame) (k : Nat) (l m : List (BitVec 1)) :
    shiftBits f k (l ++ m) = shiftBits (shiftBits f k l) (k + l.length) m := by
  induction l generalizing f k with
  | nil => rfl
  | cons bit rest ih => rw [List.cons_append, shiftBits, shiftBits, ih, List.length_cons, Nat.add_right_comm]; rfl

/-- Where bit number `q` stands after `n` shifts, in its byte: each shift into the byte moves it one place up, and the
byte takes eight. -/
def bitPlace (n q : Nat) : Nat := min n (8 * (q / 8) + 8) - 1 - q

/-- After any run of bits from a byte boundary each bit received stands at its place, whatever the bytes held before. -/
theorem getLsbD_shiftBits (f : Frame) (bits : List (BitVec 1)) (hlen : bits.length ≤ 40) {q : Nat}
    (hq : q < bits.length) :
    (frameByte (shiftBits f 0 bits) (q / 8)).getLsbD (bitPlace bits.length q) = decide (bits[q]? = some 1#1) := by
  induction bits using List.reverseRecOn with
  | nil => cases hq
  | append_singleton l bit ih =>
    simp only [List.length_append, List.length_singleton] at hlen hq ⊢
    rw [shiftBits_append, Nat.zero_add, shiftBits, shiftBits]
    by_cases hbyte : q / 8 = l.length / 8
    · rw [hbyte, frameByte_shiftFrame_self _ _ (by omega), getLsbD_shiftByte _ _ (by unfold bitPlace; omega)]
      by_cases hlast : q = l.length
      · rw [if_pos (by unfold bitPlace; omega)]
        simp [hlast]
      · have hplace : bitPlace (l.length + 1) q - 1 = bitPlace l.length q := by unfold bitPlace; omega
        rw [if_neg (by unfold bitPlace; omega), hplace, ← hbyte, ih (by omega) (by omega),
          List.getElem?_append_left (by omega)]
    · have hplace : bitPlace (l.length + 1) q = bitPlace l.length q := by unfold bitPlace; omega
      rw [frameByte_shiftFrame_ne _ _ hbyte, hplace, ih (by omega) (by omega), List.getElem?_append_left (by omega)]

/-! ### The words in numbers -/

theorem toNat_append_eq_add {n m : Nat} (x : BitVec n) (y : BitVec m) :
    (x ++ y).toNat = x.toNat * 2 ^ m + y.toNat := by
  rw [BitVec.toNat_append, ← Nat.shiftLeft_add_eq_or_of_lt y.isLt, Nat.shiftLeft_eq]

/-- The bytes of the frame, as R14 lays them out. -/
theorem frameWord_toNat (f : Frame) :
    (frameWord f).toNat = f.b0.toNat * 2 ^ 32 + (f.b1.toNat * 2 ^ 24 +
      (f.b2.toNat * 2 ^ 16 + (f.b3.toNat * 2 ^ 8 + f.b4.toNat))) := by
  simp only [frameWord, toNat_append_eq_add]

/-- The fields of `OUTCOME`, as R78 lays them out. -/
theorem outcomeWord_toNat (s : State) :
    (outcomeWord s).toNat = (tagCode s.tag).toNat * 2 ^ 32 + (s.hum.toNat * 2 ^ 16 +
      (s.tsign.toNat * 2 ^ 15 + s.tmag.toNat)) := by
  simp only [outcomeWord, toNat_append_eq_add]

/-- The low 32 bits of `OUTCOME` are the Reading registers. -/
theorem outcomeWord_low_toNat (s : State) :
    ((outcomeWord s).extractLsb' 0 32).toNat = s.hum.toNat * 2 ^ 16 + s.tsign.toNat * 2 ^ 15 + s.tmag.toNat := by
  have hhum := s.hum.isLt
  have hsign := s.tsign.isLt
  have hmag := s.tmag.isLt
  rw [BitVec.extractLsb'_toNat, Nat.shiftRight_zero, outcomeWord_toNat]
  omega

/-- The top three bits of `OUTCOME` are the code of `TAG`. -/
theorem outcomeWord_high (s : State) : (outcomeWord s).extractLsb' 32 3 = tagCode s.tag := by
  apply BitVec.eq_of_toNat_eq
  have htag := (tagCode s.tag).isLt
  have hhum := s.hum.isLt
  have hsign := s.tsign.isLt
  have hmag := s.tmag.isLt
  rw [BitVec.extractLsb'_toNat, Nat.shiftRight_eq_div_pow, outcomeWord_toNat]
  omega

/-- The top 32 bits of `FRAME` are the payload. -/
theorem frameWord_payload_toNat (f : Frame) :
    ((frameWord f).extractLsb' 8 32).toNat =
      f.b0.toNat * 2 ^ 24 + f.b1.toNat * 2 ^ 16 + f.b2.toNat * 2 ^ 8 + f.b3.toNat := by
  have h0 := f.b0.isLt
  have h1 := f.b1.isLt
  have h2 := f.b2.isLt
  have h3 := f.b3.isLt
  have h4 := f.b4.isLt
  rw [BitVec.extractLsb'_toNat, Nat.shiftRight_eq_div_pow, frameWord_toNat]
  omega

/-- `OUTCOME` with no Reading is the tag alone. -/
theorem outcomeWord_of_noReading {s : State} (h : NoReading s) : outcomeWord s = tagCode s.tag ++ 0#32 := by
  obtain ⟨hhum, hsign, hmag⟩ := h
  rw [outcomeWord, hhum, hsign, hmag]
  rfl

/-! ### The Reading -/

theorem exists_byte {n : Nat} (h : n < 256) : ∃ b : Byte, b.toNat = n :=
  ⟨BitVec.ofNat 8 n, by rw [BitVec.toNat_ofNat, Nat.mod_eq_of_lt h]⟩

/-- A Reading is its three numbers. -/
theorem reading_ext_toNat {r r' : Reading} (hhum : r.hum.toNat = r'.hum.toNat) (hsign : r.sign.toNat = r'.sign.toNat)
    (hmag : r.mag.toNat = r'.mag.toNat) : r = r' := by
  cases r
  cases r'
  simp only [Reading.mk.injEq]
  exact ⟨BitVec.eq_of_toNat_eq hhum, BitVec.eq_of_toNat_eq hsign, BitVec.eq_of_toNat_eq hmag⟩

/-- `Decode` and its inverse formulas (R165, R166): the payload of a Reading, in numbers. -/
theorem readingOf_eq_iff {b0 b1 b2 b3 : Byte} {r : Reading} :
    readingOf b0 b1 b2 b3 = r ↔ b0.toNat = r.hum.toNat / 256 ∧ b1.toNat = r.hum.toNat % 256 ∧
      b2.toNat = 128 * r.sign.toNat + r.mag.toNat / 256 ∧ b3.toNat = r.mag.toNat % 256 := by
  obtain ⟨hhum, hsign, hmag⟩ := decodeFormulas b0 b1 b2 b3
  have h1 := b1.isLt
  have h2 := b2.isLt
  have h3 := b3.isLt
  constructor
  · rintro rfl
    omega
  · intro h
    have hm := r.mag.isLt
    have hs := r.sign.isLt
    exact reading_ext_toNat (by omega) (by omega) (by omega)

/-! ### The obligations -/

/-- Settles O41: after forty shifts every byte is full, so bit `k` is at the place that `FRAME[39-k]` names. -/
theorem frameHoldsSampledBits : Obligations.FrameHoldsSampledBits := by
  unfold Obligations.FrameHoldsSampledBits
  intro f bits hlen k hk
  have hplace : bitPlace bits.length k = 7 - k % 8 := by unfold bitPlace; omega
  rw [getLsbD_frameWord _ hk, ← hplace]
  exact getLsbD_shiftBits f bits hlen.le (hlen.symm ▸ hk)

/-- Settles O43: both wrap at 256. -/
theorem checkIsWrappingSum : Obligations.CheckIsWrappingSum := by
  unfold Obligations.CheckIsWrappingSum
  intro b0 b1 b2 b3
  apply BitVec.eq_of_toNat_eq
  rw [payloadCheck_toNat]
  simp only [BitVec.toNat_add]
  omega

/-- Settles O44, byte by byte: two bytes that differ do so by less than 256. -/
theorem oneByteChangeDetected : Obligations.OneByteChangeDetected := by
  unfold Obligations.OneByteChangeDetected
  intro f i v hi hvalid hv
  rw [frameValid_eq_false_iff_sum]
  rw [frameValid_iff_sum] at hvalid
  rw [ne_eq, ← BitVec.toNat_inj] at hv
  have hrange := v.isLt
  have h0 := f.b0.isLt
  have h1 := f.b1.isLt
  have h2 := f.b2.isLt
  have h3 := f.b3.isLt
  have hbyte : i = 0 ∨ i = 1 ∨ i = 2 ∨ i = 3 ∨ i = 4 := by omega
  rcases hbyte with rfl | rfl | rfl | rfl | rfl
  all_goals
    simp only [frameByte, setFrameByte] at hv ⊢
    omega

/-- Settles O46: the four bytes of the inverse formulas exist, as each formula is below 256. -/
theorem decodeIsBijection : Obligations.DecodeIsBijection := by
  unfold Obligations.DecodeIsBijection
  intro r
  have hhum := r.hum.isLt
  have hsign := r.sign.isLt
  have hmag := r.mag.isLt
  obtain ⟨b0, h0⟩ := exists_byte (n := r.hum.toNat / 256) (by omega)
  obtain ⟨b1, h1⟩ := exists_byte (n := r.hum.toNat % 256) (by omega)
  obtain ⟨b2, h2⟩ := exists_byte (n := 128 * r.sign.toNat + r.mag.toNat / 256) (by omega)
  obtain ⟨b3, h3⟩ := exists_byte (n := r.mag.toNat % 256) (by omega)
  refine ⟨b0, b1, b2, b3, readingOf_eq_iff.2 ⟨h0, h1, h2, h3⟩, h0, h1, h2, h3, fun c0 c1 c2 c3 hc => ?_⟩
  obtain ⟨hc0, hc1, hc2, hc3⟩ := readingOf_eq_iff.1 hc
  exact ⟨BitVec.eq_of_toNat_eq (hc0.trans h0.symm), BitVec.eq_of_toNat_eq (hc1.trans h1.symm),
    BitVec.eq_of_toNat_eq (hc2.trans h2.symm), BitVec.eq_of_toNat_eq (hc3.trans h3.symm)⟩

/-- Settles O47, by the sign. -/
theorem signedTemperatureRange : Obligations.SignedTemperatureRange := by
  unfold Obligations.SignedTemperatureRange
  intro sign mag
  have hmag := mag.isLt
  have hzero : mag = 0 ↔ mag.toNat = 0 := by rw [← BitVec.toNat_inj]; rfl
  have hpos : tempTenths 0#1 mag = (mag.toNat : Int) := if_neg (by decide)
  have hneg : tempTenths 1#1 mag = -(mag.toNat : Int) := if_pos rfl
  obtain rfl | rfl : sign = 0#1 ∨ sign = 1#1 := by revert sign; decide
  · rw [hzero, hpos, hneg]
    omega
  · rw [hzero, hpos, hneg]
    omega

/-- Settles O48: both words hold the payload's bytes at the same places. -/
theorem outcomeIsFrameBits : Obligations.OutcomeIsFrameBits := by
  unfold Obligations.OutcomeIsFrameBits
  refine ⟨fun s t h => ?_, fun s hinv htag => ?_⟩
  · obtain ⟨hhum, hsign, hmag⟩ := decodeFormulas s.frame.b0 s.frame.b1 s.frame.b2 s.frame.b3
    have hb2 := s.frame.b2.isLt
    cases h
    refine ⟨BitVec.eq_of_toNat_eq ?_, outcomeWord_high _⟩
    rw [outcomeWord_low_toNat, frameWord_payload_toNat]
    simp only [toIdle_fields, emitReading_fields, hhum, hsign, hmag]
    omega
  · obtain ⟨-, -, -, -, -, -, ⟨-, hreading⟩, -⟩ := hinv
    obtain ⟨hhum, hsign, hmag⟩ := hreading htag
    apply BitVec.eq_of_toNat_eq
    rw [outcomeWord_low_toNat, hhum, hsign, hmag]
    rfl

/-- Settles O49, tag by tag. -/
theorem failureOutcomeWords : Obligations.FailureOutcomeWords := by
  unfold Obligations.FailureOutcomeWords
  intro s hs
  rw [outcomeWord_of_noReading hs]
  refine ⟨fun h => ?_, fun h => ?_, fun h => ?_, fun h => ?_, fun h => ?_, fun h => ?_⟩
  all_goals
    rw [h]
    rfl

end Sys2Proof.Machine
end

section
/-! The invariant of the engine (spec/10_state.md sections 3 to 7, spec/41_handshake_sequencer.md section 7): stated
phase by phase, kept by every step, and the obligations O10 to O14 and O50 from it. -/

namespace Sys2Proof.Machine

/-! ### The invariant, phase by phase -/

/-- How many bits have been received in a wait (R17). -/
def Wait.BitsInv : Wait → State → Prop
  | .ackLow, s => s.bitcnt = 0 ∧ s.frame = Frame.zero
  | .ackHigh, s => s.bitcnt = 0 ∧ s.frame = Frame.zero
  | .bitLow, s => s.bitcnt < 40
  | .bitHigh, s => s.bitcnt < 40
  | .endWait, s => s.bitcnt = 40

/-- No failure and no outcome stands (R19, R22). -/
def NothingStands (s : State) : Prop := s.cause = .none ∧ s.tag = .none

/-- What holds while a wait is under way. -/
def Wait.Inv (k : Wait) (s : State) : Prop :=
  s.dir = .input ∧ spinWithin (k.budget s.cfg) s.spin = true ∧ NothingStands s ∧ k.BitsInv s

/-- What holds in each phase, besides what holds in all of them. -/
def PhaseInv (p : Phase) (s : State) : Prop :=
  match p with
  | .idle => s.dir = .output ∧ CleanScratch s
  | .start => s.dir = .output ∧ CleanScratch s ∧ s.tag = .none
  | .ackLow => Wait.ackLow.Inv s
  | .ackHigh => Wait.ackHigh.Inv s
  | .bitLow => Wait.bitLow.Inv s
  | .bitHigh => Wait.bitHigh.Inv s
  | .bitSample => s.dir = .input ∧ s.spin = 0 ∧ NothingStands s ∧ s.bitcnt < 40
  | .endWait => Wait.endWait.Inv s
  | .validate => s.dir = .output ∧ s.spin = 0 ∧ NothingStands s ∧ s.bitcnt = 40
  | .decode => s.dir = .output ∧ s.spin = 0 ∧ NothingStands s ∧ s.bitcnt = 40 ∧ frameValid s.frame = true
  | .fail => s.dir = .input ∧ (∃ k : Wait, s.cause = k.cause) ∧ s.tag = .none ∧ s.bitcnt ≤ 40

theorem phaseInv_phase (k : Wait) (s : State) : PhaseInv k.phase s ↔ k.Inv s := by
  cases k <;> rfl

/-- The four causes are those of the five waits (R19). -/
theorem exists_wait_cause_iff (c : Tag) :
    (∃ k : Wait, c = k.cause) ↔ c = .ackTimeout ∨ c = .ackTimeout2 ∨ c = .bitTimeout ∨ c = .endTimeout := by
  constructor
  · rintro ⟨k, rfl⟩
    cases k <;> decide
  · rintro (rfl | rfl | rfl | rfl)
    · exact ⟨.ackLow, rfl⟩
    · exact ⟨.ackHigh, rfl⟩
    · exact ⟨.bitLow, rfl⟩
    · exact ⟨.endWait, rfl⟩

/-- Phase by phase both sides are the same facts, grouped once by register and once by phase. -/
theorem engineInv_iff (s : State) :
    EngineInv s ↔ CfgOk s.cfg ∧ lineExclusive s = true ∧ s.out = .high ∧ (s.tag ≠ .reading → NoReading s) ∧
      PhaseInv s.ph s := by
  cases hp : s.ph <;>
    simp [EngineInv, LineFollowsPhase, BitCountFollowsPhase, SpinFollowsPhase, CauseFollowsPhase,
      OutcomeFollowsPhase, DecodesValidFrame, PhaseInv, Wait.Inv, Wait.BitsInv, Wait.budget, NothingStands,
      inputPhase, spinWithin, exists_wait_cause_iff, hp] <;> tauto

/-! ### The phases with an operation, the five waits as one case -/

theorem phaseOperation_eq_some {p : Phase} {i : Instr} (h : phaseOperation p = some i) :
    (∃ k : Wait, p = k.phase ∧ i = k.op) ∨ (p = .start ∧ i = .start) ∨ (p = .bitSample ∧ i = .bitSample) ∨
      (p = .validate ∧ i = .validate) ∨ (p = .decode ∧ i = .decodeReading) ∨ (p = .fail ∧ i = .recover) := by
  cases p with
  | idle => cases h
  | ackLow => cases h; exact .inl ⟨.ackLow, rfl, rfl⟩
  | ackHigh => cases h; exact .inl ⟨.ackHigh, rfl, rfl⟩
  | bitLow => cases h; exact .inl ⟨.bitLow, rfl, rfl⟩
  | bitHigh => cases h; exact .inl ⟨.bitHigh, rfl, rfl⟩
  | endWait => cases h; exact .inl ⟨.endWait, rfl, rfl⟩
  | start | bitSample | validate | decode | fail => cases h; simp

/-! ### A wait keeps the invariant -/

theorem Wait.budgetOk_budget (k : Wait) {c : Cfg} (h : CfgOk c) : budgetOk (k.budget c) = true := by
  obtain ⟨hack, hbit, hend⟩ := h
  cases k with
  | ackLow | ackHigh => exact decide_eq_true hack
  | bitLow | bitHigh => exact hbit
  | endWait => exact hend

/-- A wait is begun within its budget (R7, R18). -/
theorem Wait.fresh (k : Wait) {c : Cfg} (h : CfgOk c) : spinWithin (k.budget c) 0 = true :=
  spinWithin_zero (k.budgetOk_budget h)

theorem Wait.BitsInv.le {k : Wait} {s : State} (h : k.BitsInv s) : s.bitcnt ≤ 40 := by
  cases k with
  | ackLow | ackHigh => exact h.1.trans_le (by decide)
  | bitLow | bitHigh => exact Nat.le_of_lt h
  | endWait => exact Nat.le_of_eq h

/-- The invariant of a wait reads nothing that a read or a delay writes. -/
@[simp] theorem Wait.inv_afterRead (k : Wait) (s : State) : k.Inv (afterRead s) ↔ k.Inv s := by
  cases k <;> simp [Wait.Inv, Wait.BitsInv, NothingStands]

@[simp] theorem Wait.inv_delayUs (k : Wait) (n : Nat) (s : State) : k.Inv (delayUs n s) ↔ k.Inv s := by
  cases k <;> rfl

/-- The phase after a wait begins as it should: the count is 0, and only `END` has driven the line. -/
theorem Wait.finish_phaseInv (k : Wait) {s : State} (hcfg : CfgOk s.cfg) (hs : k.Inv s) :
    PhaseInv k.next (k.finish s) := by
  obtain ⟨hin, -, hnone, hbits⟩ := hs
  cases k with
  | ackLow => exact ⟨hin, Wait.ackHigh.fresh hcfg, hnone, hbits⟩
  | ackHigh => exact ⟨hin, Wait.bitLow.fresh hcfg, hnone, hbits.1.trans_lt (by decide)⟩
  | bitLow => exact ⟨hin, Wait.bitHigh.fresh hcfg, hnone, hbits⟩
  | bitHigh => exact ⟨hin, rfl, hnone, hbits⟩
  | endWait => exact ⟨rfl, rfl, hnone, hbits⟩

theorem Wait.finish_out (k : Wait) {s : State} (h : s.out = .high) : (k.finish s).out = .high := by
  cases k with
  | ackLow | ackHigh | bitLow | bitHigh => exact h
  | endWait => rfl

/-- A miss leaves the wait within its budget, or enters `FAIL` with the wait's cause. -/
theorem Wait.countMiss_phaseInv (k : Wait) {s : State} (hp : s.ph = k.phase) (hs : k.Inv s) :
    PhaseInv (countMiss (k.budget s.cfg) k.cause s).ph (countMiss (k.budget s.cfg) k.cause s) := by
  obtain ⟨-, hmiss⟩ | ⟨-, hmiss⟩ | ⟨n, hb, hn, hmiss⟩ := countMiss_cases (k.budget s.cfg) k.cause s
  · rw [hmiss, hp, phaseInv_phase]
    exact hs
  · obtain ⟨hin, -, ⟨-, htag⟩, hbits⟩ := hs
    rw [hmiss]
    exact ⟨hin, ⟨k, rfl⟩, htag, hbits.le⟩
  · obtain ⟨hin, hspin, hnone, hbits⟩ := hs
    rw [hmiss, hp, phaseInv_phase]
    rw [hb] at hspin
    refine ⟨hin, ?_, hnone, ?_⟩
    · rw [hb]
      exact spinWithin_succ hspin hn
    · cases k <;> exact hbits

/-! ### Every operation of a phase keeps the invariant -/

/-- What an operation leaves alone need not be shown again: the configuration and the port. -/
theorem EngineInv.of_exec {i : Instr} {s t : State} (hs : EngineInv s) (h : exec i s = .next t)
    (hout : t.out = .high) (hreading : t.tag ≠ .reading → NoReading t) (hphase : PhaseInv t.ph t) : EngineInv t := by
  obtain ⟨hcfg, hport, -⟩ := hs
  have hafter := exec_after h
  rw [engineInv_iff]
  refine ⟨hafter.cfg ▸ hcfg, ?_, hout, hreading, hphase⟩
  rw [lineExclusive, hafter.port]
  exact hport

theorem Wait.exec_keeps (k : Wait) {s : State} (hs : EngineInv s) (hp : s.ph = k.phase) :
    ∃ t, exec k.op s = .next t ∧ EngineInv t := by
  obtain ⟨hcfg, hport, hout, hreading, hphase⟩ := (engineInv_iff s).1 hs
  rw [hp, phaseInv_phase] at hphase
  by_cases hans : nextAnswer s = k.target
  · have hexec := k.exec_op_hit hphase.1 hans
    refine ⟨_, hexec, hs.of_exec hexec (k.finish_out (by simpa using hout)) (by simpa [NoReading] using hreading) ?_⟩
    rw [k.finish_ph]
    exact k.finish_phaseInv (by simpa using hcfg) (by simpa using hphase)
  · have hexec := k.exec_op_miss hphase.1 hans
    refine ⟨_, hexec, hs.of_exec hexec (by simpa using hout) (by simpa [NoReading] using hreading) ?_⟩
    simpa using k.countMiss_phaseInv (s := delayUs pollUs (afterRead s)) (by simpa using hp) (by simpa using hphase)

/-- After a sample the next bit's wait or that of the end begins. -/
theorem bitSample_keeps {s : State} (hs : EngineInv s) (hp : s.ph = .bitSample) :
    ∃ t, exec .bitSample s = .next t ∧ EngineInv t := by
  obtain ⟨hcfg, hport, hout, hreading, hphase⟩ := (engineInv_iff s).1 hs
  rw [hp] at hphase
  obtain ⟨hin, -, hnone, hroom⟩ := hphase
  have hexec := (exec_bitSample s).trans (execBitSample_of_input hin hroom)
  refine ⟨_, hexec, hs.of_exec hexec ?_ ?_ ?_⟩
  · simp only [leaveWait_fields, shiftIn_fields, afterRead_fields, delayUs_fields, hout]
  · simpa only [NoReading, leaveWait_fields, shiftIn_fields, afterRead_fields, delayUs_fields] using hreading
  by_cases hlast : s.bitcnt + 1 = 40
  · rw [if_pos hlast, leaveWait_ph]
    have hfresh := Wait.endWait.fresh hcfg
    simpa [hlast, PhaseInv, Wait.Inv, Wait.BitsInv, NothingStands, hin] using ⟨hfresh, hnone⟩
  · rw [if_neg hlast, leaveWait_ph]
    have hfresh := Wait.bitLow.fresh hcfg
    have hroom' : s.bitcnt + 1 < 40 := by omega
    simpa [PhaseInv, Wait.Inv, Wait.BitsInv, NothingStands, hin] using ⟨hfresh, hnone, hroom'⟩

theorem start_keeps {s : State} (hs : EngineInv s) (hp : s.ph = .start) :
    ∃ t, exec .start s = .next t ∧ EngineInv t := by
  obtain ⟨hcfg, -, hout, hreading, hphase⟩ := (engineInv_iff s).1 hs
  rw [hp] at hphase
  obtain ⟨hdir, ⟨hframe, hbitcnt, -, hcause⟩, htag⟩ := hphase
  obtain ⟨t, hexec⟩ : ∃ t, exec .start s = .next t := ⟨_, execStart_of_output hdir⟩
  obtain ⟨-, hf, hph, hb, hsp, hc, htg, hh, hts, htm, hd, ho, -, -, -, hcf, -⟩ := execStart_cases hexec
  refine ⟨t, hexec, hs.of_exec hexec ho (by simpa only [NoReading, htg, hh, hts, htm] using hreading) ?_⟩
  rw [hph]
  refine ⟨hd, ?_, ⟨hc.trans hcause, htg.trans htag⟩, hb.trans hbitcnt, hf.trans hframe⟩
  rw [hsp]
  exact Wait.ackLow.fresh (hcf ▸ hcfg)

theorem validate_keeps {s : State} (hs : EngineInv s) (hp : s.ph = .validate) :
    ∃ t, exec .validate s = .next t ∧ EngineInv t := by
  obtain ⟨-, -, hout, hreading, hphase⟩ := (engineInv_iff s).1 hs
  rw [hp] at hphase
  obtain ⟨hdir, hspin, hnone, hfull⟩ := hphase
  cases hvalid : frameValid s.frame with
  | true =>
    have hexec := (exec_validate s).trans (execValidate_of_valid hvalid)
    exact ⟨_, hexec, hs.of_exec hexec hout hreading ⟨hdir, hspin, hnone, hfull, hvalid⟩⟩
  | false =>
    have hexec := (exec_validate s).trans (execValidate_of_invalid hvalid)
    have hnoReading : NoReading s := hreading (by rw [hnone.2]; decide)
    exact ⟨_, hexec, hs.of_exec hexec hout (fun _ => hnoReading) ⟨hdir, toIdle_clean _⟩⟩

theorem decodeReading_keeps {s : State} (hs : EngineInv s) (hp : s.ph = .decode) :
    ∃ t, exec .decodeReading s = .next t ∧ EngineInv t := by
  obtain ⟨-, -, hout, -, hphase⟩ := (engineInv_iff s).1 hs
  rw [hp] at hphase
  have hexec := exec_decodeReading s
  exact ⟨_, hexec, hs.of_exec hexec hout (fun htag => absurd rfl htag) ⟨hphase.1, toIdle_clean _⟩⟩

theorem recover_keeps {s : State} (hs : EngineInv s) (hp : s.ph = .fail) :
    ∃ t, exec .recover s = .next t ∧ EngineInv t := by
  obtain ⟨-, -, -, hreading, hphase⟩ := (engineInv_iff s).1 hs
  rw [hp] at hphase
  obtain ⟨-, -, htag, -⟩ := hphase
  have hnoReading : NoReading s := hreading (by rw [htag]; decide)
  have hexec := (exec_recover s).trans (reportFailure_eq s)
  exact ⟨_, hexec, hs.of_exec hexec rfl (fun _ => hnoReading) ⟨rfl, toIdle_clean _⟩⟩

/-- The operation of a busy phase answers, and keeps the invariant. -/
theorem exec_phaseOperation_keeps {i : Instr} {s : State} (hs : EngineInv s) (hi : phaseOperation s.ph = some i) :
    ∃ t, exec i s = .next t ∧ EngineInv t := by
  obtain ⟨k, hp, rfl⟩ | ⟨hp, rfl⟩ | ⟨hp, rfl⟩ | ⟨hp, rfl⟩ | ⟨hp, rfl⟩ | ⟨hp, rfl⟩ := phaseOperation_eq_some hi
  · exact k.exec_keeps hs hp
  · exact start_keeps hs hp
  · exact bitSample_keeps hs hp
  · exact validate_keeps hs hp
  · exact decodeReading_keeps hs hp
  · exact recover_keeps hs hp

/-! ### The host commands, the reset and the port entry keep the invariant -/

theorem engineInv_takePort {s : State} (hs : EngineInv s) : EngineInv (takePort s) := by
  obtain ⟨hcfg, hport, hrest⟩ := hs
  refine ⟨hcfg, ?_, hrest⟩
  rw [lineExclusive, List.all_eq_true] at hport ⊢
  exact fun w hw => hport w (List.mem_of_mem_tail hw)

theorem acquire_keeps {s t : State} (hs : EngineInv s) (h : exec .acquire s = .next t) : EngineInv t := by
  obtain ⟨-, -, hout, -, hphase⟩ := (engineInv_iff s).1 hs
  have hexec := h
  obtain ⟨hidle, rfl⟩ := execAcquire_cases h
  rw [hidle] at hphase
  exact hs.of_exec hexec hout (fun _ => ⟨rfl, rfl, rfl⟩) ⟨hphase.1, ⟨rfl, rfl, rfl, rfl⟩, rfl⟩

theorem abort_keeps {s t : State} (hs : EngineInv s) (h : exec .abort s = .next t) : EngineInv t := by
  have hexec := h
  obtain ⟨-, rfl⟩ | ⟨-, rfl⟩ := execAbort_cases h
  · exact hs
  · exact hs.of_exec hexec rfl (fun _ => ⟨rfl, rfl, rfl⟩) ⟨rfl, toIdle_clean _⟩

/-- Reset leaves the idle state, whatever stood before; only the configuration and the port matter. -/
theorem engineInv_resetEvent {s : State} (hcfg : CfgOk s.cfg) (hport : lineExclusive s = true) :
    EngineInv (resetEvent s) :=
  (engineInv_iff _).2 ⟨hcfg, hport, rfl, fun _ => ⟨rfl, rfl, rfl⟩, rfl, rfl, rfl, rfl, rfl⟩

/-! ### Steps from a state of the invariant -/

theorem not_drv_of_lineExclusive {s : State} {w : BitVec 12} {rest : List PortWord} (h : lineExclusive s = true)
    (hport : s.port = .drv w :: rest) : False := by
  rw [lineExclusive, hport] at h
  cases h

/-- With the line the engine's alone (R106) no driver call from outside is run. -/
theorem step_cases_exclusive {s t : State} (hs : lineExclusive s = true) (h : step s = .next t) :
    t = resetEvent (takePort s) ∨ (s.ph = .idle ∧ t = takePort s) ∨
      (∃ i, phaseOperation s.ph = some i ∧ exec i (takePort s) = .next t) ∨
      exec .acquire (takePort s) = .next t ∨ exec .abort (takePort s) = .next t := by
  obtain ⟨-, rfl⟩ | ⟨-, hidle, rfl⟩ | ⟨w, i, hfetch, hdecode, hexec⟩ := step_cases h
  · exact .inl rfl
  · exact .inr (.inl ⟨hidle, rfl⟩)
  · rcases port_cases s with hno | ⟨c, rest, hport, hc⟩ | ⟨w', rest, hport⟩ | ⟨rest, hport⟩
    · cases hfetch.symm.trans (fetch_of_noCommandPresented hno)
      exact .inr (.inr (.inl ⟨i, decode_phaseCode_eq_ok_iff.1 hdecode, hexec⟩))
    · cases hfetch.symm.trans (fetch_of_host hport hc)
      obtain rfl | rfl := Laws.WordFormat.decodeHostCmd_cases hdecode
      · exact .inr (.inr (.inr (.inl hexec)))
      · exact .inr (.inr (.inr (.inr hexec)))
    · exact (not_drv_of_lineExclusive hs hport).elim
    · cases hfetch.symm.trans (fetch_of_reset hport)

/-- With no command presented now or later none is presented now. -/
theorem noCommand_of_quiet {s : State} (h : quiet s = true) : NoCommand s := by
  rcases hport : s.port with _ | ⟨w, rest⟩
  · exact .inl hport
  · rw [quiet, hport, List.all_cons, Bool.and_eq_true] at h
    cases w with
    | host c => exact .inr ⟨rest, by rw [hport, of_decide_eq_true h.1]⟩
    | drv w => cases h.1
    | reset => cases h.1

theorem quiet_takePort {s : State} (h : quiet s = true) : quiet (takePort s) = true := by
  rw [quiet, List.all_eq_true] at h ⊢
  exact fun w hw => h w (List.mem_of_mem_tail hw)

theorem exists_phaseOperation {p : Phase} (h : p ≠ .idle) : ∃ i, phaseOperation p = some i := by
  cases p with
  | idle => exact absurd rfl h
  | start | ackLow | ackHigh | bitLow | bitHigh | bitSample | endWait | validate | decode | fail => exact ⟨_, rfl⟩

/-- A busy engine with no command presented has its step, and it is that of its phase. -/
theorem step_of_busy {s : State} (hs : EngineInv s) (hno : NoCommand s) (hbusy : s.ph ≠ .idle) :
    ∃ i t, phaseOperation s.ph = some i ∧ exec i (takePort s) = .next t ∧ step s = .next t ∧ EngineInv t := by
  obtain ⟨i, hi⟩ := exists_phaseOperation hbusy
  obtain ⟨t, hexec, ht⟩ := exec_phaseOperation_keeps (engineInv_takePort hs) hi
  exact ⟨i, t, hi, hexec, (step_of_phase hno hi).trans hexec, ht⟩

/-- `ACQUIRE` may be refused, but it makes no driver call. -/
theorem execAcquire_ne_fault (s : State) (f : Fault) : execAcquire s ≠ .fault f := by
  by_cases hidle : s.ph = .idle
  · rw [execAcquire_of_idle hidle]; nofun
  · rw [execAcquire_of_busy hidle]; nofun

/-- `ABORT` sets the direction before it drives the line (R46). -/
theorem execAbort_ne_fault (s : State) (f : Fault) : execAbort s ≠ .fault f := by
  by_cases hidle : s.ph = .idle
  · rw [execAbort_of_idle hidle]; nofun
  · rw [execAbort_of_busy hidle]; nofun

/-- The operation of a phase leads to one of the phases that R16 names. -/
theorem exec_phaseOperation_successor {i : Instr} {s t : State} (hi : phaseOperation s.ph = some i)
    (h : exec i s = .next t) : t.ph ∈ successors s.ph := by
  obtain ⟨k, hp, rfl⟩ | ⟨hp, rfl⟩ | ⟨hp, rfl⟩ | ⟨hp, rfl⟩ | ⟨hp, rfl⟩ | ⟨hp, rfl⟩ := phaseOperation_eq_some hi
  · obtain ⟨hnext, hsame, hfail⟩ :
        k.next ∈ successors k.phase ∧ k.phase ∈ successors k.phase ∧ .fail ∈ successors k.phase := by
      cases k <;> decide
    rw [hp]
    obtain ⟨-, ⟨-, rfl⟩ | ⟨-, rfl⟩⟩ := Wait.exec_op_cases h
    · simpa using hnext
    · obtain hph | hph := countMiss_ph (k.budget s.cfg) k.cause (delayUs pollUs (afterRead s))
      · simpa [hph, hp] using hsame
      · simpa [hph] using hfail
  · obtain ⟨-, -, hph, -⟩ := execStart_cases h
    rw [hp, hph]
    decide
  · obtain ⟨-, -, rfl⟩ := execBitSample_cases h
    rw [hp, leaveWait_ph]
    split <;> decide
  · rw [hp]
    obtain ⟨-, rfl⟩ | ⟨-, rfl⟩ := execValidate_cases h
    · exact (by decide : Phase.decode ∈ successors .validate)
    · exact (by decide : Phase.idle ∈ successors .validate)
  · cases h
    rw [hp]
    exact (by decide : Phase.idle ∈ successors .decode)
  · rw [exec_recover, reportFailure_eq] at h
    cases h
    rw [hp]
    exact (by decide : Phase.idle ∈ successors .fail)

/-! ### The obligations -/

theorem budgetOk_budgetOf (o : Option Nat) : budgetOk (Config.budgetOf o) = true := by
  cases o with
  | none => rfl
  | some n => exact decide_eq_true (Nat.le_add_left 1 n)

/-- Settles O10: every budget after reset is `INF` or a successor. -/
theorem resetMeetsInvariant : Obligations.ResetMeetsInvariant := by
  unfold Obligations.ResetMeetsInvariant
  have hcfg : CfgOk State.reset.cfg := ⟨Nat.le_add_left 1 _, budgetOk_budgetOf _, budgetOk_budgetOf _⟩
  exact ⟨engineInv_resetEvent (s := State.reset) hcfg rfl, ⟨rfl, ⟨rfl, rfl, rfl, rfl⟩, ⟨rfl, rfl⟩, hcfg⟩, rfl, rfl⟩

/-- Settles O11: a step is the reset, the idle wait, the operation of the phase or a host command, and each keeps the
invariant. -/
theorem stepKeepsInvariant : Obligations.StepKeepsInvariant := by
  unfold Obligations.StepKeepsInvariant
  intro s t hs h
  have htaken := engineInv_takePort hs
  have ⟨_, hport, _⟩ := hs
  obtain rfl | ⟨-, rfl⟩ | ⟨i, hi, hexec⟩ | hexec | hexec := step_cases_exclusive hport h
  · obtain ⟨hcfg, hport', -⟩ := htaken
    exact engineInv_resetEvent hcfg hport'
  · exact htaken
  · obtain ⟨t', ht', hkeeps⟩ := exec_phaseOperation_keeps htaken hi
    cases hexec.symm.trans ht'
    exact hkeeps
  · exact acquire_keeps htaken hexec
  · exact abort_keeps htaken hexec

/-- Settles O12, by the entry at the head of the port: the invariant keeps the operation of a phase within the
driver's contract, and the two host commands cannot fault. -/
theorem noModelFault : Obligations.NoModelFault := by
  unfold Obligations.NoModelFault
  intro s f hs hreserved hfault
  have ⟨_, hexclusive, _⟩ := hs
  rcases port_cases s with hno | ⟨c, rest, hport, hc⟩ | ⟨w, rest, hport⟩ | ⟨rest, hport⟩
  · by_cases hidle : s.ph = .idle
    · cases (step_of_idle hno hidle).symm.trans hfault
    · obtain ⟨i, t, -, -, hstep, -⟩ := step_of_busy hs hno hidle
      cases hstep.symm.trans hfault
  · have hfetch := fetch_of_host hport hc
    obtain rfl | rfl | rfl | rfl := hostWord_cases c
    · exact hc rfl
    · exact execAcquire_ne_fault _ f ((step_of_decode (i := .acquire) hfetch rfl).symm.trans hfault)
    · exact execAbort_ne_fault _ f ((step_of_decode (i := .abort) hfetch rfl).symm.trans hfault)
    · rw [hport] at hreserved
      cases hreserved
  · exact not_drv_of_lineExclusive hexclusive hport
  · cases (step_of_reset hport).symm.trans hfault

/-- Settles O13. -/
theorem busyEngineProgresses : Obligations.BusyEngineProgresses := by
  unfold Obligations.BusyEngineProgresses
  intro s hs hquiet hbusy
  obtain ⟨-, t, -, -, hstep, -⟩ := step_of_busy hs (noCommand_of_quiet hquiet) hbusy
  exact ⟨t, hstep⟩

/-- Settles O14: with no command presented a step is the idle wait or the operation of the phase. -/
theorem phaseTransitions : Obligations.PhaseTransitions := by
  unfold Obligations.PhaseTransitions
  intro s t hquiet h
  have hno := noCommand_of_quiet hquiet
  by_cases hidle : s.ph = .idle
  · cases (step_of_idle hno hidle).symm.trans h
    simp [hidle, successors]
  · obtain ⟨i, hi⟩ := exists_phaseOperation hidle
    exact exec_phaseOperation_successor (s := takePort s) hi ((step_of_phase hno hi).symm.trans h)

/-- No operation of a phase but `DECODE` leaves the tag of a Reading, and `DECODE` finds a valid frame. -/
theorem exec_phaseOperation_reading {i : Instr} {s t : State} (hs : EngineInv s) (hi : phaseOperation s.ph = some i)
    (h : exec i s = .next t) (htag : t.tag = .reading) :
    s.ph = .decode ∧ frameValid s.frame = true ∧
      (⟨t.hum, t.tsign, t.tmag⟩ : Reading) = readingOf s.frame.b0 s.frame.b1 s.frame.b2 s.frame.b3 := by
  obtain ⟨-, -, -, -, -, hcause, ⟨hnone, -⟩, hvalid⟩ := hs
  have htagWritten (hwrites : writesTag i = false) (hbusy : s.ph ≠ .idle) : False := by
    have htags := (exec_onlyWrites h).tag hwrites
    rw [htag, hnone hbusy] at htags
    cases htags
  obtain ⟨k, hp, rfl⟩ | ⟨hp, rfl⟩ | ⟨hp, rfl⟩ | ⟨hp, rfl⟩ | ⟨hp, rfl⟩ | ⟨hp, rfl⟩ := phaseOperation_eq_some hi
  · exact (htagWritten (by simp [k.op_writers]) (hp ▸ k.phase_ne_idle)).elim
  · exact (htagWritten rfl (by rw [hp]; decide)).elim
  · exact (htagWritten rfl (by rw [hp]; decide)).elim
  · obtain ⟨-, rfl⟩ | ⟨-, rfl⟩ := execValidate_cases h
    · cases (hnone (by rw [hp]; decide)).symm.trans htag
    · cases htag
  · cases h
    exact ⟨hp, hvalid hp, rfl⟩
  · rw [exec_recover, reportFailure_eq] at h
    cases h
    obtain hc | hc | hc | hc := hcause.1 hp
    all_goals cases hc.symm.trans htag

/-- Settles O50: of the steps that are no operation of a phase, those that keep a tag keep the Reading with it. -/
theorem readingOnlyFromValidFrame : Obligations.ReadingOnlyFromValidFrame := by
  unfold Obligations.ReadingOnlyFromValidFrame
  intro s t hs h htag
  have ⟨_, hport, _⟩ := hs
  obtain rfl | ⟨-, rfl⟩ | ⟨i, hi, hexec⟩ | hexec | hexec := step_cases_exclusive hport h
  · cases htag
  · exact .inl ⟨htag, rfl, rfl, rfl⟩
  · exact .inr (exec_phaseOperation_reading (s := takePort s) (engineInv_takePort hs) hi hexec htag)
  · obtain ⟨-, rfl⟩ := execAcquire_cases hexec
    cases htag
  · obtain ⟨-, rfl⟩ | ⟨-, rfl⟩ := execAbort_cases hexec
    · exact .inl ⟨htag, rfl, rfl, rfl⟩
    · cases htag

end Sys2Proof.Machine
end

section
/-! The hardened cycle (spec/70_reset_and_hazards.md R240, spec/40_acquire_host_interface.md R104): each step brings it
nearer its end, so the call ends within the bound, and the obligations O55 to O57 from it. -/

namespace Sys2Proof.Machine

/-! ### The steps left -/

theorem hardened_iff {c : Cfg} :
    hardened c = true ↔ ∃ b e, c.bitBudget = .finite b ∧ c.endBudget = .finite e := by
  cases hb : c.bitBudget <;> cases he : c.endBudget <;> simp [hardened, hb, he]

/-- The most steps from the end of a wait on. -/
def Wait.stepsAfter (k : Wait) (s : State) : Nat :=
  let bit := pollsLeft s.cfg.bitBudget 0
  let cell := 2 * bit + 1
  let tail := pollsLeft s.cfg.endBudget 0 + 2
  match k with
  | .ackLow => s.cfg.ackBudget + 40 * cell + tail
  | .ackHigh => 40 * cell + tail
  | .bitLow => bit + 1 + (39 - s.bitcnt) * cell + tail
  | .bitHigh => 1 + (39 - s.bitcnt) * cell + tail
  | .endWait => 2

theorem stepsLeft_of_wait {k : Wait} {s : State} (hp : s.ph = k.phase) :
    stepsLeft s = pollsLeft (k.budget s.cfg) s.spin + k.stepsAfter s := by
  cases k <;> simp [stepsLeft, Wait.stepsAfter, Wait.budget, Wait.phase, pollsLeft, hp, Nat.add_assoc]

theorem stepsLeft_of_start {s : State} (hp : s.ph = .start) :
    stepsLeft s = 1 + 2 * s.cfg.ackBudget + 40 * (2 * pollsLeft s.cfg.bitBudget 0 + 1) +
      pollsLeft s.cfg.endBudget 0 + 2 := by
  simp [stepsLeft, hp, Nat.add_assoc]

theorem stepsLeft_of_bitSample {s : State} (hp : s.ph = .bitSample) :
    stepsLeft s = 1 + (39 - s.bitcnt) * (2 * pollsLeft s.cfg.bitBudget 0 + 1) + pollsLeft s.cfg.endBudget 0 + 2 := by
  simp [stepsLeft, hp, Nat.add_assoc]

/-- The outcome of the cycle is still to be reported. -/
theorem Wait.two_le_stepsAfter (k : Wait) (s : State) : 2 ≤ k.stepsAfter s := by
  cases k <;> simp only [Wait.stepsAfter] <;> omega

theorem Wait.stepsAfter_congr (k : Wait) {s t : State} (hcfg : t.cfg = s.cfg) (hbitcnt : t.bitcnt = s.bitcnt) :
    k.stepsAfter t = k.stepsAfter s := by
  cases k <;> simp [Wait.stepsAfter, hcfg, hbitcnt]

/-- What is left once a wait is over; a bit's turn is the 40th part of the forty. -/
theorem Wait.stepsLeft_finish (k : Wait) {s : State} (hbits : k.BitsInv s) :
    stepsLeft (k.finish s) = k.stepsAfter s := by
  cases k with
  | ackLow => simp [stepsLeft, finish, stepsAfter]
  | ackHigh =>
    obtain ⟨hbitcnt, -⟩ := hbits
    simp only [stepsLeft, finish, leaveWait_fields, stepsAfter, hbitcnt]
    omega
  | bitLow => simp [stepsLeft, finish, stepsAfter]
  | bitHigh => simp [stepsLeft, finish, stepsAfter]
  | endWait => simp [stepsLeft, finish, stepsAfter]

theorem Wait.budget_finite (k : Wait) {c : Cfg} (h : hardened c = true) : ∃ n, k.budget c = .finite n := by
  obtain ⟨b, e, hb, he⟩ := hardened_iff.1 h
  cases k with
  | ackLow | ackHigh => exact ⟨_, rfl⟩
  | bitLow | bitHigh => exact ⟨b, hb⟩
  | endWait => exact ⟨e, he⟩

theorem pollsLeft_pos {n k : Nat} (h : spinWithin (.finite n) k = true) : 0 < pollsLeft (.finite n) k :=
  Nat.sub_pos_of_lt (of_decide_eq_true h)

/-- A miss counts one poll off, or ends the wait. -/
theorem Wait.stepsLeft_countMiss (k : Wait) {s : State} (hp : s.ph = k.phase) {n : Nat}
    (hb : k.budget s.cfg = .finite n) (hspin : spinWithin (.finite n) s.spin = true) :
    stepsLeft (countMiss (k.budget s.cfg) k.cause s) < stepsLeft s := by
  have hafter := k.two_le_stepsAfter s
  have hpos := pollsLeft_pos hspin
  rw [stepsLeft_of_wait hp, hb]
  by_cases hlast : s.spin + 1 = n
  · have hfail : stepsLeft (countMiss (.finite n) k.cause s) = 1 := by rw [countMiss_last _ hlast]; rfl
    omega
  · have hcount : stepsLeft (countMiss (.finite n) k.cause s) =
        pollsLeft (k.budget s.cfg) (s.spin + 1) + k.stepsAfter s := by
      rw [countMiss_below _ hlast, stepsLeft_of_wait (s := { s with spin := s.spin + 1 }) hp,
        k.stepsAfter_congr (s := s) rfl rfl]
      rfl
    rw [hcount, hb]
    simp only [pollsLeft] at hpos ⊢
    omega

/-- The count reads the phase, the counters and the configuration. -/
theorem stepsLeft_congr {s t : State} (hph : t.ph = s.ph) (hbitcnt : t.bitcnt = s.bitcnt) (hspin : t.spin = s.spin)
    (hcfg : t.cfg = s.cfg) : stepsLeft t = stepsLeft s := by
  simp only [stepsLeft, hph, hbitcnt, hspin, hcfg]

theorem Wait.exec_decreases (k : Wait) {s t : State} (hs : EngineInv s) (hhard : hardened s.cfg = true)
    (hp : s.ph = k.phase) (h : exec k.op s = .next t) : stepsLeft t < stepsLeft s := by
  obtain ⟨-, -, -, -, hphase⟩ := (engineInv_iff s).1 hs
  rw [hp, phaseInv_phase] at hphase
  have ⟨_, hwithin, _, hbits⟩ := hphase
  obtain ⟨n, hb⟩ := k.budget_finite hhard
  have hspin : spinWithin (.finite n) s.spin = true := hb ▸ hwithin
  obtain ⟨-, ⟨-, rfl⟩ | ⟨-, rfl⟩⟩ := Wait.exec_op_cases h
  · have ⟨_, _, _, hread⟩ := (k.inv_afterRead s).2 hphase
    have hpos := pollsLeft_pos hspin
    rw [k.stepsLeft_finish hread, k.stepsAfter_congr (s := s) (by simp) (by simp), stepsLeft_of_wait hp, hb]
    omega
  · have hdelayed : stepsLeft (delayUs pollUs (afterRead s)) = stepsLeft s :=
      stepsLeft_congr (by simp) (by simp) (by simp) (by simp)
    have hmiss := k.stepsLeft_countMiss (s := delayUs pollUs (afterRead s)) (by simpa using hp)
      (by simpa using hb) (by simpa using hspin)
    simpa [hdelayed] using hmiss

/-- A sample leaves one bit less, or the end of the frame. -/
theorem bitSample_decreases {s t : State} (hp : s.ph = .bitSample) (h : exec .bitSample s = .next t) :
    stepsLeft t < stepsLeft s := by
  obtain ⟨-, hroom, rfl⟩ := execBitSample_cases h
  rw [stepsLeft_of_bitSample hp]
  by_cases hlast : s.bitcnt + 1 = 40
  · simp [stepsLeft, hlast]
  · have hbits : 39 - s.bitcnt = 39 - (s.bitcnt + 1) + 1 := by omega
    rw [hbits, Nat.succ_mul]
    simp only [stepsLeft, if_neg hlast, leaveWait_fields, shiftIn_fields, afterRead_fields, delayUs_fields]
    omega

/-- The operation of a busy phase takes at least one from the steps left. -/
theorem exec_phaseOperation_decreases {i : Instr} {s t : State} (hs : EngineInv s) (hhard : hardened s.cfg = true)
    (hi : phaseOperation s.ph = some i) (h : exec i s = .next t) : stepsLeft t < stepsLeft s := by
  obtain ⟨k, hp, rfl⟩ | ⟨hp, rfl⟩ | ⟨hp, rfl⟩ | ⟨hp, rfl⟩ | ⟨hp, rfl⟩ | ⟨hp, rfl⟩ := phaseOperation_eq_some hi
  · exact k.exec_decreases hs hhard hp h
  · obtain ⟨-, -, hph, -, hspin, -, -, -, -, -, -, -, -, -, -, hcfg, -⟩ := execStart_cases h
    rw [stepsLeft_of_start hp, stepsLeft_of_wait (k := .ackLow) hph]
    simp only [Wait.stepsAfter, Wait.budget, pollsLeft, hspin, hcfg]
    omega
  · exact bitSample_decreases hp h
  · have hleft : stepsLeft s = 2 := by simp [stepsLeft, hp]
    rw [hleft]
    obtain ⟨-, rfl⟩ | ⟨-, rfl⟩ := execValidate_cases h
    · exact (by decide : 1 < 2)
    · exact (by decide : 0 < 2)
  · have hleft : stepsLeft s = 1 := by simp [stepsLeft, hp]
    rw [hleft]
    cases h
    exact Nat.one_pos
  · have hleft : stepsLeft s = 1 := by simp [stepsLeft, hp]
    rw [hleft]
    rw [exec_recover, reportFailure_eq] at h
    cases h
    exact Nat.one_pos

/-! ### The reads left -/

/-- The most reads still to come in a hardened cycle: the last two steps read nothing, nor does `START`. -/
def readsLeft (s : State) : Nat := if s.ph = .start then stepsLeft s - 3 else stepsLeft s - 2

theorem readsLeft_of_start {s : State} (h : s.ph = .start) : readsLeft s = stepsLeft s - 3 := if_pos h

theorem readsLeft_of_not_start {s : State} (h : s.ph ≠ .start) : readsLeft s = stepsLeft s - 2 := if_neg h

/-- A step makes at most one read, and in the phases that read none it makes none. -/
theorem exec_phaseOperation_reads {i : Instr} {s t : State} (hs : EngineInv s) (hhard : hardened s.cfg = true)
    (hi : phaseOperation s.ph = some i) (h : exec i s = .next t) :
    t.nread + readsLeft t ≤ s.nread + readsLeft s := by
  have hdec := exec_phaseOperation_decreases hs hhard hi h
  have hnread := (exec_after h).nread
  have ht : readsLeft t ≤ stepsLeft t - 2 := by unfold readsLeft; split <;> omega
  obtain ⟨k, hp, rfl⟩ | ⟨hp, rfl⟩ | ⟨hp, rfl⟩ | ⟨hp, rfl⟩ | ⟨hp, rfl⟩ | ⟨hp, rfl⟩ := phaseOperation_eq_some hi
  · have hone : traceReads (madeCalls k.op s) = 1 := by
      rw [madeCalls_wait]
      split <;> simp [readsOf]
    have hstart : s.ph ≠ .start := by rw [hp]; cases k <;> decide
    have hafter := k.two_le_stepsAfter s
    obtain ⟨-, -, -, -, hphase⟩ := (engineInv_iff s).1 hs
    rw [hp, phaseInv_phase] at hphase
    obtain ⟨-, hspin, -⟩ := hphase
    obtain ⟨n, hb⟩ := k.budget_finite hhard
    have hpos := pollsLeft_pos (hb ▸ hspin)
    rw [hnread, hone, readsLeft_of_not_start hstart]
    rw [stepsLeft_of_wait hp, hb] at hdec ⊢
    omega
  · have hzero : traceReads (madeCalls .start s) = 0 := rfl
    rw [hnread, hzero, readsLeft_of_start hp]
    omega
  · have hone : traceReads (madeCalls .bitSample s) = 1 := rfl
    rw [hnread, hone, readsLeft_of_not_start (s := s) (by rw [hp]; decide)]
    rw [stepsLeft_of_bitSample hp] at hdec ⊢
    omega
  · have hzero : traceReads (madeCalls .validate s) = 0 := rfl
    have hleft : stepsLeft s = 2 := by simp [stepsLeft, hp]
    omega
  · have hzero : traceReads (madeCalls .decodeReading s) = 0 := rfl
    have hleft : stepsLeft s = 1 := by simp [stepsLeft, hp]
    omega
  · have hzero : traceReads (madeCalls .recover s) = 0 := rfl
    have hleft : stepsLeft s = 1 := by simp [stepsLeft, hp]
    omega

/-! ### The call -/

/-- The state `ACQUIRE` leaves an idle engine in (R102). -/
def launched (s : State) : State := { clearScratch (clearOutcome s) with ph := .start }

@[simp] theorem launched_fields (s : State) :
    (launched s).ph = .start ∧ (launched s).bitcnt = 0 ∧ (launched s).spin = 0 ∧ (launched s).dir = s.dir ∧
      (launched s).trace = s.trace ∧ (launched s).tUs = s.tUs ∧ (launched s).nread = s.nread ∧
      (launched s).cfg = s.cfg ∧ (launched s).script = s.script ∧ (launched s).oracle = s.oracle ∧
      (launched s).port = s.port :=
  ⟨rfl, rfl, rfl, rfl, rfl, rfl, rfl, rfl, rfl, rfl, rfl⟩

/-- The blocking call is the run from the launched state. -/
theorem acquireCall_eq (fuel : Nat) {s : State} (h : Launch s) : acquireCall fuel s = runToIdle fuel (launched s) := by
  rw [acquireCall, execAcquire_of_idle h.1, andThen_next, launched]

theorem lineExclusive_of_quiet {s : State} (h : quiet s = true) : lineExclusive s = true := by
  rw [quiet, List.all_eq_true] at h
  rw [lineExclusive, List.all_eq_true]
  intro w hw
  have hquiet := h w hw
  cases w with
  | host c => rfl
  | drv w => cases hquiet
  | reset => rfl

/-- A launch under R236's premises begins a cycle in which the invariant holds. -/
theorem engineInv_launched {s : State} (h : Launch s) (hquiet : quiet s = true) : EngineInv (launched s) := by
  obtain ⟨-, -, ⟨hdir, hout⟩, hcfg⟩ := h
  exact (engineInv_iff _).2
    ⟨hcfg, lineExclusive_of_quiet hquiet, hout, fun _ => ⟨rfl, rfl, rfl⟩, hdir, ⟨rfl, rfl, rfl, rfl⟩, rfl⟩

theorem stepsLeft_takePort (s : State) : stepsLeft (takePort s) = stepsLeft s := rfl

/-- What a busy step of a cycle with a quiet port keeps. -/
theorem quiet_step {i : Instr} {s t : State} (hquiet : quiet s = true) (h : exec i (takePort s) = .next t) :
    quiet t = true ∧ t.cfg = s.cfg := by
  have hafter := exec_after h
  exact ⟨by rw [quiet, hafter.port]; exact quiet_takePort hquiet, hafter.cfg⟩

theorem runToIdle_of_idle (n : Nat) {s : State} (h : s.ph = .idle) : runToIdle n s = .next s := by
  cases n with
  | zero => rfl
  | succ n => rw [runToIdle, if_pos h]

theorem runToIdle_succ {n : Nat} {s t : State} (hbusy : s.ph ≠ .idle) (hstep : step s = .next t) :
    runToIdle (n + 1) s = runToIdle n t := by
  rw [runToIdle, if_neg hbusy, hstep, andThen_next]

/-- A cycle that comes to its end has reported an outcome (R104, R206). -/
theorem exec_phaseOperation_outcome {i : Instr} {s t : State} (hs : EngineInv s) (hi : phaseOperation s.ph = some i)
    (h : exec i s = .next t) (hidle : t.ph = .idle) : t.tag ≠ .none := by
  have hsucc := exec_phaseOperation_successor hi h
  rw [hidle] at hsucc
  obtain ⟨k, hp, rfl⟩ | ⟨hp, rfl⟩ | ⟨hp, rfl⟩ | ⟨hp, rfl⟩ | ⟨hp, rfl⟩ | ⟨hp, rfl⟩ := phaseOperation_eq_some hi
  · rw [hp] at hsucc
    exact absurd hsucc (by cases k <;> decide)
  · rw [hp] at hsucc
    exact absurd hsucc (by decide)
  · rw [hp] at hsucc
    exact absurd hsucc (by decide)
  · obtain ⟨-, rfl⟩ | ⟨-, rfl⟩ := execValidate_cases h
    · cases hidle
    · nofun
  · cases h
    nofun
  · rw [exec_recover, reportFailure_eq] at h
    cases h
    obtain ⟨-, -, -, -, -, ⟨k, hcause⟩, -⟩ := hp ▸ (engineInv_iff s).1 hs
    simp only [toIdle_fields, record_fields, setDirection_fields, hcause]
    cases k <;> decide

/-- A hardened cycle with enough fuel ends, in a state of the invariant and with an outcome. -/
theorem runToIdle_ends (n : Nat) {s : State} (hs : EngineInv s) (hhard : hardened s.cfg = true)
    (hquiet : quiet s = true) (hbusy : s.ph ≠ .idle) (hn : stepsLeft s ≤ n) :
    ∃ t, runToIdle n s = .next t ∧ t.ph = .idle ∧ t.tag ≠ .none ∧ EngineInv t := by
  induction n generalizing s with
  | zero =>
    obtain ⟨i, t, hi, hexec, -, -⟩ := step_of_busy hs (noCommand_of_quiet hquiet) hbusy
    have hdec := exec_phaseOperation_decreases (s := takePort s) (engineInv_takePort hs) hhard hi hexec
    rw [stepsLeft_takePort] at hdec
    omega
  | succ n ih =>
    obtain ⟨i, t, hi, hexec, hstep, ht⟩ := step_of_busy hs (noCommand_of_quiet hquiet) hbusy
    have hdec := exec_phaseOperation_decreases (s := takePort s) (engineInv_takePort hs) hhard hi hexec
    rw [stepsLeft_takePort] at hdec
    obtain ⟨hquiet', hcfg⟩ := quiet_step hquiet hexec
    rw [runToIdle_succ hbusy hstep]
    by_cases hidle : t.ph = .idle
    · have htag := exec_phaseOperation_outcome (s := takePort s) (engineInv_takePort hs) hi hexec hidle
      exact ⟨t, runToIdle_of_idle n hidle, hidle, htag, ht⟩
    · exact ih ht (hcfg ▸ hhard) hquiet' hidle (by omega)

/-- At whatever step it is looked at, a hardened cycle has made no more reads than it may. -/
theorem runToIdle_reads (n : Nat) {s t : State} (hs : EngineInv s) (hhard : hardened s.cfg = true)
    (hquiet : quiet s = true) (h : runToIdle n s = .next t) : t.nread + readsLeft t ≤ s.nread + readsLeft s := by
  induction n generalizing s with
  | zero =>
    cases h
    exact Nat.le_refl _
  | succ n ih =>
    by_cases hidle : s.ph = .idle
    · cases (runToIdle_of_idle _ hidle).symm.trans h
      exact Nat.le_refl _
    · obtain ⟨i, u, hi, hexec, hstep, hu⟩ := step_of_busy hs (noCommand_of_quiet hquiet) hidle
      obtain ⟨hquiet', hcfg⟩ := quiet_step hquiet hexec
      rw [runToIdle_succ hidle hstep] at h
      exact (ih hu (hcfg ▸ hhard) hquiet' h).trans
        (exec_phaseOperation_reads (s := takePort s) (engineInv_takePort hs) hhard hi hexec)

theorem result_ne_none {s : State} (h : s.tag ≠ .none) : result s ≠ none := by
  unfold result
  split
  · next htag => exact absurd htag h
  all_goals nofun

/-! ### The obligations -/

/-- Settles O55. -/
theorem hardenedStepsDecrease : Obligations.HardenedStepsDecrease := by
  unfold Obligations.HardenedStepsDecrease
  intro s hs hhard hquiet hbusy
  obtain ⟨i, t, hi, hexec, hstep, -⟩ := step_of_busy hs (noCommand_of_quiet hquiet) hbusy
  exact ⟨t, hstep, exec_phaseOperation_decreases (s := takePort s) (engineInv_takePort hs) hhard hi hexec⟩

/-- Settles O56: the bound is the number of steps left after the launch, and the invariant gives the idle line and the
clean scratch. -/
theorem hardenedCycleEnds : Obligations.HardenedCycleEnds := by
  unfold Obligations.HardenedCycleEnds
  intro s bound hlaunch hquiet hbound
  unfold cycleStepBound at hbound
  split at hbound
  · next b e hb he =>
    cases hbound
    have hhard : hardened (launched s).cfg = true := hardened_iff.2 ⟨b, e, hb, he⟩
    have hleft : stepsLeft (launched s) = 1 + 2 * s.cfg.ackBudget + 40 * (2 * b + 1) + e + 2 := by
      simp [stepsLeft_of_start, hb, he, pollsLeft]
    obtain ⟨t, hrun, hidle, htag, ht⟩ :=
      runToIdle_ends _ (engineInv_launched hlaunch hquiet) hhard hquiet nofun hleft.le
    obtain ⟨-, -, hout, -, hphase⟩ := (engineInv_iff t).1 ht
    rw [hidle] at hphase
    exact ⟨t, (acquireCall_eq _ hlaunch).trans hrun, hidle, result_ne_none htag, ⟨hphase.1, hout⟩, hphase.2⟩
  · cases hbound

/-- Settles O57. -/
theorem hardenedReadsBounded : Obligations.HardenedReadsBounded := by
  unfold Obligations.HardenedReadsBounded
  intro s t fuel b e hlaunch hquiet hb he hcall
  rw [acquireCall_eq _ hlaunch] at hcall
  have hhard : hardened (launched s).cfg = true := hardened_iff.2 ⟨b, e, hb, he⟩
  have hreads := runToIdle_reads fuel (engineInv_launched hlaunch hquiet) hhard hquiet hcall
  have hleft : readsLeft (launched s) = 2 * s.cfg.ackBudget + 40 * (2 * b + 1) + e := by
    rw [readsLeft_of_start rfl, stepsLeft_of_start rfl]
    simp only [launched_fields, hb, he, pollsLeft]
    omega
  have hnread : (launched s).nread = s.nread := rfl
  omega

end Sys2Proof.Machine
end

section
/-! Whole waits (spec/41_handshake_sequencer.md R110, spec/42_bit_sample_detector.md sections 2 and 3): a run of wrong
answers within the budget stays in the wait, the right one ends it, and the last one the budget allows fails it. With
them the obligations O51, O52 and O58. -/

namespace Sys2Proof.Machine

/-! ### Runs -/

/-- A run of the machine, at the types of the model. -/
def steps (n : Nat) (s : State) : Host.Outcome State Fault Refusal := Host.Core.run Sys2Proof.core n s

theorem core_run_of_next (M : Host.Core) (n : Nat) {s t : M.State} (h : M.step s = .next t) :
    M.run (n + 1) s = M.run n t := by
  rw [Host.Core.run, h]

theorem core_run_of_fault (M : Host.Core) (n : Nat) {s : M.State} {f : M.Fault} (h : M.step s = .fault f) :
    M.run (n + 1) s = .fault f := by
  rw [Host.Core.run, h]

theorem core_run_of_refused (M : Host.Core) (n : Nat) {s : M.State} {r : M.Refusal} (h : M.step s = .refused r) :
    M.run (n + 1) s = .refused r := by
  rw [Host.Core.run, h]

@[simp] theorem steps_zero (s : State) : steps 0 s = .next s := rfl

theorem steps_succ (n : Nat) (s : State) : steps (n + 1) s = andThen (step s) (steps n) := by
  cases h : step s with
  | next t => exact core_run_of_next Sys2Proof.core n h
  | fault f => exact core_run_of_fault Sys2Proof.core n h
  | refused r => exact core_run_of_refused Sys2Proof.core n h

theorem steps_succ_of_step {s t : State} (h : step s = .next t) (n : Nat) : steps (n + 1) s = steps n t := by
  rw [steps_succ, h, andThen_next]

/-- A run goes on from where its first part has led. -/
theorem steps_add {m : Nat} {s t : State} (h : steps m s = .next t) (n : Nat) : steps (m + n) s = steps n t := by
  induction m generalizing s with
  | zero =>
    cases h
    rw [Nat.zero_add]
  | succ m ih =>
    rw [steps_succ] at h
    obtain ⟨u, hstep, hrun⟩ := andThen_eq_next_iff.1 h
    rw [Nat.add_right_comm, steps_succ_of_step hstep, ih hrun]

/-- A run followed by one more step. -/
theorem steps_then_step {m : Nat} {s t u : State} (h : steps m s = .next t) (hstep : step t = .next u) :
    steps (m + 1) s = .next u := by
  rw [steps_add h, steps_succ_of_step hstep, steps_zero]

/-! ### The answers to come (R48) -/

/-- The answers to come depend on what is left of the script and on the count of free answers. -/
theorem nextAnswers_congr (n : Nat) {s t : State} (hscript : t.script = s.script) (horacle : t.oracle = s.oracle) :
    nextAnswers n t = nextAnswers n s := by
  induction n generalizing s t with
  | zero => rfl
  | succ n ih =>
    have hanswer : nextAnswer t = nextAnswer s := by rw [nextAnswer, nextAnswer, hscript, horacle]
    have hdrop : (dropAnswer t).script = (dropAnswer s).script ∧ (dropAnswer t).oracle = (dropAnswer s).oracle := by
      cases hs : s.script <;> simp [dropAnswer, hscript, horacle, hs]
    rw [nextAnswers, nextAnswers, hanswer, ih hdrop.1 hdrop.2]

theorem dropAnswer_script (s : State) : (dropAnswer s).script = s.script.tail := by
  cases h : s.script <;> simp [dropAnswer, h]

theorem afterRead_takePort_oracle (s : State) : (afterRead (takePort s)).oracle = (dropAnswer s).oracle := by
  cases h : s.script <;> simp [afterRead, dropAnswer, takePort, record, h]

theorem take_nextAnswers {m n : Nat} (s : State) (h : m ≤ n) : (nextAnswers n s).take m = nextAnswers m s := by
  induction n generalizing m s with
  | zero =>
    obtain rfl := Nat.le_zero.1 h
    rfl
  | succ n ih =>
    cases m with
    | zero => rfl
    | succ m => rw [nextAnswers, nextAnswers, List.take_succ_cons, ih _ (Nat.le_of_succ_le_succ h)]

/-- While the script lasts it is what is answered. -/
theorem nextAnswers_of_script {s : State} {l rest : List Level} (h : s.script = l ++ rest) :
    nextAnswers l.length s = l := by
  induction l generalizing s with
  | nil => rfl
  | cons v l ih =>
    have hdrop : (dropAnswer s).script = l ++ rest := by rw [dropAnswer_script, h]; rfl
    rw [List.length_cons, nextAnswers, ih hdrop, nextAnswer_of_script_cons h]

/-! ### `WaitLevel` (R110) -/

theorem afterMiss_eq_ok_iff {w : WaitResult} {j : Nat} : afterMiss w = .ok j ↔ ∃ i, w = .ok i ∧ j = i + 1 := by
  cases w <;> simp [afterMiss, eq_comm]

theorem afterMiss_eq_timeout_iff {w : WaitResult} : afterMiss w = .timeout ↔ w = .timeout := by
  cases w <;> simp [afterMiss]

theorem afterMiss_eq_undecided_iff {w : WaitResult} : afterMiss w = .undecided ↔ w = .undecided := by
  cases w <;> simp [afterMiss]

theorem admitsMisses_succ {n k : Nat} (h : admitsMisses (.finite n) k = true) :
    admitsMisses (.finite (n + 1)) (k + 1) = true :=
  decide_eq_true (Nat.succ_lt_succ (of_decide_eq_true h))

/-- `WaitLevel` is over at the first right answer, if the budget admits the wrong ones before it. -/
theorem waitLevel_eq_ok {target : Level} {b : Budget} {l : List Level} {j : Nat} (h : waitLevel target b l = .ok j) :
    (∀ v ∈ l.take j, v ≠ target) ∧ l[j]? = some target ∧ admitsMisses b j = true := by
  fun_induction waitLevel target b l generalizing j with
  | case1 | case2 | case3 => cases h
  | case4 n rest =>
    cases h
    exact ⟨by simp, rfl, decide_eq_true (Nat.succ_pos n)⟩
  | case5 n v rest hv ih =>
    obtain ⟨i, hi, rfl⟩ := afterMiss_eq_ok_iff.1 h
    obtain ⟨hwrong, hright, hadmits⟩ := ih hi
    exact ⟨List.forall_mem_cons.2 ⟨hv, hwrong⟩, hright, admitsMisses_succ hadmits⟩
  | case6 rest =>
    cases h
    exact ⟨by simp, rfl, rfl⟩
  | case7 v rest hv ih =>
    obtain ⟨i, hi, rfl⟩ := afterMiss_eq_ok_iff.1 h
    obtain ⟨hwrong, hright, -⟩ := ih hi
    exact ⟨List.forall_mem_cons.2 ⟨hv, hwrong⟩, hright, rfl⟩

/-- `WaitLevel` times out on as many wrong answers as a finite budget allows. -/
theorem waitLevel_eq_timeout {target : Level} {n : Nat} {l : List Level}
    (h : waitLevel target (.finite n) l = .timeout) : n ≤ l.length ∧ ∀ v ∈ l.take n, v ≠ target := by
  induction l generalizing n with
  | nil =>
    cases n with
    | zero => simp
    | succ n => cases h
  | cons v rest ih =>
    cases n with
    | zero => simp
    | succ n =>
      rw [waitLevel] at h
      split at h
      · cases h
      · next hv =>
        obtain ⟨hlen, hwrong⟩ := ih (afterMiss_eq_timeout_iff.1 h)
        exact ⟨Nat.succ_le_succ hlen, List.forall_mem_cons.2 ⟨hv, hwrong⟩⟩

/-- `WaitLevel` is undecided by wrong answers of which the budget admits one more. -/
theorem waitLevel_eq_undecided {target : Level} {b : Budget} {l : List Level}
    (h : waitLevel target b l = .undecided) : (∀ v ∈ l, v ≠ target) ∧ admitsMisses b l.length = true := by
  fun_induction waitLevel target b l with
  | case1 | case4 | case6 => cases h
  | case2 n => exact ⟨nofun, decide_eq_true (Nat.succ_pos n)⟩
  | case3 => exact ⟨nofun, rfl⟩
  | case5 n v rest hv ih =>
    obtain ⟨hwrong, hadmits⟩ := ih (afterMiss_eq_undecided_iff.1 h)
    exact ⟨List.forall_mem_cons.2 ⟨hv, hwrong⟩, admitsMisses_succ hadmits⟩
  | case7 v rest hv ih =>
    obtain ⟨hwrong, -⟩ := ih (afterMiss_eq_undecided_iff.1 h)
    exact ⟨List.forall_mem_cons.2 ⟨hv, hwrong⟩, rfl⟩

/-! ### A run of wrong answers -/

/-- The level a wait is not for. -/
def Wait.wrong : Wait → Level
  | .ackLow => .high
  | .ackHigh => .low
  | .bitLow => .high
  | .bitHigh => .low
  | .endWait => .high

theorem Wait.ne_target_iff (k : Wait) {v : Level} : v ≠ k.target ↔ v = k.wrong := by
  cases k <;> cases v <;> decide

/-- `t` is `s` after `m` wrong answers that left it in the wait `k`. -/
structure Wait.Misses (k : Wait) (m : Nat) (s t : State) : Prop where
  run : steps m s = .next t
  ph : t.ph = s.ph
  frame : t.frame = s.frame
  bitcnt : t.bitcnt = s.bitcnt
  cause : t.cause = s.cause
  dir : t.dir = s.dir
  cfg : t.cfg = s.cfg
  spin : t.spin = if k.budget s.cfg = .inf then s.spin else s.spin + m
  trace : t.trace = s.trace ++ (List.replicate m [DrvCall.getLevel k.wrong, DrvCall.delayUs 1]).flatten
  tUs : t.tUs = s.tUs + m
  nread : t.nread = s.nread + m
  script : t.script = s.script.drop m
  quiet : quiet t = true
  /-- The answers to come are those after the ones used up. -/
  answers : ∀ n, nextAnswers n t = (nextAnswers (m + n) s).drop m

/-- Whether the budget of a wait admits `m` more wrong answers and still another poll. -/
def Wait.Below (k : Wait) (m : Nat) (s : State) : Prop := ∀ n, k.budget s.cfg = .finite n → s.spin + m < n

/-- A wrong answer below the budget is counted, and nothing else happens. -/
theorem Wait.countMiss_of_below (k : Wait) {s : State} (h : k.Below 1 s) :
    countMiss (k.budget s.cfg) k.cause s =
      { s with spin := if k.budget s.cfg = .inf then s.spin else s.spin + 1 } := by
  cases hb : k.budget s.cfg with
  | inf => simp [countMiss_inf]
  | finite n =>
    rw [countMiss_below _ (Nat.ne_of_lt (h n hb))]
    simp

/-- The step of a wait whose poll reads the wrong level. -/
theorem Wait.step_miss (k : Wait) {s : State} (hp : s.ph = k.phase) (hin : s.dir = .input)
    (hquiet : quiet s = true) (hans : nextAnswer s = k.wrong) :
    step s = .next (countMiss (k.budget s.cfg) k.cause (delayUs pollUs (afterRead (takePort s)))) := by
  have hi : phaseOperation s.ph = some k.op := by rw [hp, k.phaseOperation_phase]
  rw [step_of_phase (noCommand_of_quiet hquiet) hi]
  exact k.exec_op_miss (s := takePort s) hin (k.ne_target_iff.2 hans)

/-- The step of a wait whose poll reads the awaited level. -/
theorem Wait.step_hit (k : Wait) {s : State} (hp : s.ph = k.phase) (hin : s.dir = .input)
    (hquiet : quiet s = true) (hans : nextAnswer s = k.target) :
    step s = .next (k.finish (afterRead (takePort s))) := by
  have hi : phaseOperation s.ph = some k.op := by rw [hp, k.phaseOperation_phase]
  rw [step_of_phase (noCommand_of_quiet hquiet) hi]
  exact k.exec_op_hit (s := takePort s) hin hans

theorem Wait.Below.of_le {k : Wait} {m n : Nat} {s : State} (h : k.Below n s) (hle : m ≤ n) : k.Below m s := by
  intro b hb
  have := h b hb
  omega

theorem Wait.Misses.refl (k : Wait) {s : State} (hquiet : Machine.quiet s = true) : k.Misses 0 s s :=
  ⟨rfl, rfl, rfl, rfl, rfl, rfl, rfl, by simp, by simp, rfl, rfl, rfl, hquiet, fun n => by simp⟩

theorem Wait.Misses.trans {k : Wait} {m n : Nat} {s t u : State} (h : k.Misses m s t) (h' : k.Misses n t u) :
    k.Misses (m + n) s u where
  run := by rw [steps_add h.run, h'.run]
  ph := h'.ph.trans h.ph
  frame := h'.frame.trans h.frame
  bitcnt := h'.bitcnt.trans h.bitcnt
  cause := h'.cause.trans h.cause
  dir := h'.dir.trans h.dir
  cfg := h'.cfg.trans h.cfg
  spin := by
    rw [h'.spin, h.cfg, h.spin]
    split
    · rfl
    · rw [Nat.add_assoc]
  trace := by rw [h'.trace, h.trace, List.append_assoc, ← List.flatten_append, List.replicate_append_replicate]
  tUs := by rw [h'.tUs, h.tUs, Nat.add_assoc]
  nread := by rw [h'.nread, h.nread, Nat.add_assoc]
  script := by rw [h'.script, h.script, List.drop_drop]
  quiet := h'.quiet
  answers j := by rw [h'.answers, h.answers, List.drop_drop, Nat.add_assoc]

/-- One wrong answer below the budget. -/
theorem Wait.misses_one (k : Wait) {s : State} (hp : s.ph = k.phase) (hin : s.dir = .input)
    (hquiet : quiet s = true) (hans : nextAnswer s = k.wrong) (hbelow : k.Below 1 s) : ∃ t, k.Misses 1 s t := by
  have hstep := k.step_miss hp hin hquiet hans
  have hcount := k.countMiss_of_below (s := delayUs pollUs (afterRead (takePort s)))
    (by simpa [Wait.Below] using hbelow)
  simp only [delayUs_fields, afterRead_fields, takePort_fields] at hcount
  refine ⟨_, (steps_succ_of_step (hcount ▸ hstep) 0), ?_, ?_, ?_, ?_, ?_, ?_, rfl, ?_, ?_, ?_, ?_, ?_, fun n => ?_⟩
  · simp
  · simp
  · simp
  · simp
  · simp
  · simp
  · simp [hans, pollUs]
  · simp [pollUs]
  · simp
  · simp
  · simpa [quiet] using quiet_takePort hquiet
  · rw [Nat.add_comm 1 n, nextAnswers, List.drop_one, List.tail_cons]
    exact nextAnswers_congr n (dropAnswer_script s).symm (afterRead_takePort_oracle s)

/-- Wrong answers within the budget leave the wait under way. -/
theorem Wait.misses (k : Wait) (m : Nat) {s : State} (hp : s.ph = k.phase) (hin : s.dir = .input)
    (hquiet : quiet s = true) (hans : ∀ v ∈ nextAnswers m s, v = k.wrong) (hbelow : k.Below m s) :
    ∃ t, k.Misses m s t := by
  induction m generalizing s with
  | zero => exact ⟨s, .refl k hquiet⟩
  | succ m ih =>
    rw [nextAnswers, List.forall_mem_cons] at hans
    obtain ⟨hfirst, hlater⟩ := hans
    obtain ⟨t, ht⟩ := k.misses_one hp hin hquiet hfirst (hbelow.of_le (Nat.le_add_left 1 m))
    have hans' : nextAnswers m t = nextAnswers m (dropAnswer s) := by
      rw [ht.answers, Nat.add_comm, nextAnswers, List.drop_one, List.tail_cons]
    have hbelow' : k.Below m t := by
      intro n hn
      rw [ht.cfg] at hn
      have := hbelow n hn
      rw [ht.spin, if_neg (by rw [hn]; nofun)]
      omega
    obtain ⟨u, hu⟩ := ih (ht.ph.trans hp) (ht.dir.trans hin) ht.quiet (hans' ▸ hlater) hbelow'
    exact ⟨u, Nat.add_comm 1 m ▸ ht.trans hu⟩

/-- The answer after the ones used up. -/
theorem Wait.Misses.nextAnswer_eq {k : Wait} {m n : Nat} {s t : State} {v : Level} (h : k.Misses m s t)
    (hv : (nextAnswers n s)[m]? = some v) : nextAnswer t = v := by
  have hm : m < n := by simpa using (List.getElem?_eq_some_iff.1 hv).1
  have hone : (nextAnswers n s)[m]? = some (nextAnswer t) := by
    have hdrop := h.answers (n - m)
    rw [Nat.add_sub_cancel' hm.le] at hdrop
    obtain ⟨j, hj⟩ : ∃ j, n - m = j + 1 := ⟨n - m - 1, by omega⟩
    rw [hj, nextAnswers] at hdrop
    rw [← Nat.add_zero m, ← List.getElem?_drop, ← hdrop]
    rfl
  exact Option.some.inj (hone.symm.trans hv)

/-! ### The ends of a wait -/

/-- A wait that reads its level ends, after as many steps as it made reads. -/
theorem Wait.Misses.hit {k : Wait} {m : Nat} {s t : State} (h : k.Misses m s t) (hp : s.ph = k.phase)
    (hin : s.dir = .input) (hans : nextAnswer t = k.target) :
    steps (m + 1) s = .next (k.finish (afterRead (takePort t))) :=
  steps_then_step h.run (k.step_hit (h.ph.trans hp) (h.dir.trans hin) h.quiet hans)

theorem Wait.below_of_admits (k : Wait) {m : Nat} {s : State} (hspin : s.spin = 0)
    (h : admitsMisses (k.budget s.cfg) m = true) : k.Below m s := by
  intro n hn
  rw [hn] at h
  rw [hspin, Nat.zero_add]
  exact of_decide_eq_true h

/-- `t` is `s` after a wait `k` that has used up its budget of `n` polls. -/
structure Wait.TimesOut (k : Wait) (n : Nat) (s t : State) : Prop where
  run : steps n s = .next t
  ph : t.ph = .fail
  cause : t.cause = k.cause
  spin : t.spin = n
  trace : t.trace = s.trace ++ (List.replicate n [DrvCall.getLevel k.wrong, DrvCall.delayUs 1]).flatten
  tUs : t.tUs = s.tUs + n
  nread : t.nread = s.nread + n
  script : t.script = s.script.drop n
  quiet : quiet t = true

/-- As many wrong answers as a finite budget has polls fail the wait: all but the last leave it under way. -/
theorem Wait.timesOut (k : Wait) {m : Nat} {s : State} (hp : s.ph = k.phase) (hin : s.dir = .input)
    (hquiet : quiet s = true) (hspin : s.spin = 0) (hb : k.budget s.cfg = .finite (m + 1))
    (hans : ∀ v ∈ nextAnswers (m + 1) s, v = k.wrong) : ∃ t, k.TimesOut (m + 1) s t := by
  have hfirst : ∀ v ∈ nextAnswers m s, v = k.wrong := by
    intro v hv
    rw [← take_nextAnswers s (Nat.le_succ m)] at hv
    exact hans v (List.mem_of_mem_take hv)
  obtain ⟨t, ht⟩ := k.misses m hp hin hquiet hfirst (k.below_of_admits hspin (by simp [hb, admitsMisses]))
  have hlen : m < (nextAnswers (m + 1) s).length := by simp
  have hlast : nextAnswer t = k.wrong :=
    (ht.nextAnswer_eq (List.getElem?_eq_getElem hlen)).trans (hans _ (List.getElem_mem hlen))
  have hspin' : t.spin = m := by rw [ht.spin, hb, if_neg nofun, hspin, Nat.zero_add]
  have hstep := k.step_miss (ht.ph.trans hp) (ht.dir.trans hin) ht.quiet hlast
  rw [ht.cfg, hb, countMiss_last _ (by simp [hspin'])] at hstep
  refine ⟨_, steps_then_step ht.run hstep, rfl, rfl, ?_, ?_, ?_, ?_, ?_, ?_⟩
  · simp [hspin']
  · simp [ht.trace, hlast, pollUs, List.replicate_succ']
  · simp [ht.tUs, pollUs, Nat.add_assoc]
  · simp [ht.nread, Nat.add_assoc]
  · simp [ht.script]
  · simpa [quiet] using quiet_takePort ht.quiet

/-! ### The obligations -/

/-- A wait is `WaitLevel` under its budget, in all its ends. -/
theorem Wait.waitSpec (k : Wait) : WaitSpec k.phase k.target k.budget k.next k.cause := by
  intro s n hp hin hspin hport hok
  have hquiet : quiet s = true := by rw [quiet, hport]; rfl
  refine ⟨fun j hj => ?_, fun b hb htimeout => ?_, fun hundecided => ?_⟩
  · obtain ⟨hwrong, hright, hadmits⟩ := waitLevel_eq_ok hj
    have hlen : j < n := by simpa using (List.getElem?_eq_some_iff.1 hright).1
    rw [take_nextAnswers s hlen.le] at hwrong
    obtain ⟨t, ht⟩ := k.misses j hp hin hquiet (fun v hv => k.ne_target_iff.1 (hwrong v hv))
      (k.below_of_admits hspin hadmits)
    refine ⟨_, ht.hit hp hin (ht.nextAnswer_eq hright), ?_⟩
    simp [ht.cause, ht.nread, ht.tUs, ht.script, Nat.add_assoc]
  · rw [hb] at htimeout hok
    obtain ⟨hlen, hwrong⟩ := waitLevel_eq_timeout htimeout
    obtain ⟨m, rfl⟩ := Nat.exists_eq_add_one_of_ne_zero (Nat.ne_of_gt (of_decide_eq_true hok))
    rw [length_nextAnswers] at hlen
    rw [take_nextAnswers s hlen] at hwrong
    obtain ⟨t, ht⟩ := k.timesOut hp hin hquiet hspin hb fun v hv => k.ne_target_iff.1 (hwrong v hv)
    exact ⟨t, ht.run, ht.ph, ht.cause, ht.spin, ht.nread, ht.tUs, ht.script⟩
  · obtain ⟨hwrong, hadmits⟩ := waitLevel_eq_undecided hundecided
    rw [length_nextAnswers] at hadmits
    obtain ⟨t, ht⟩ := k.misses n hp hin hquiet (fun v hv => k.ne_target_iff.1 (hwrong v hv))
      (k.below_of_admits hspin hadmits)
    exact ⟨t, ht.run, ht.ph.trans hp, ht.cause, by rw [ht.spin, hspin, Nat.zero_add], ht.nread, ht.tUs, ht.script⟩

/-- Settles O51. -/
theorem ackHighIsWaitLevel : Obligations.AckHighIsWaitLevel := by
  unfold Obligations.AckHighIsWaitLevel
  exact Wait.ackHigh.waitSpec

/-- Settles O52. -/
theorem otherWaitsAreWaitLevel : Obligations.OtherWaitsAreWaitLevel := by
  unfold Obligations.OtherWaitsAreWaitLevel
  exact ⟨Wait.ackLow.waitSpec, Wait.bitLow.waitSpec, Wait.bitHigh.waitSpec, Wait.endWait.waitSpec⟩

/-- Settles O58: under `INF` no number of wrong answers ends a wait. -/
theorem unboundedWaitHangs : Obligations.UnboundedWaitHangs := by
  unfold Obligations.UnboundedWaitHangs
  intro n s v hin hport hscript hwait
  have hquiet : quiet s = true := by rw [quiet, hport]; rfl
  obtain ⟨k, hp, hb, rfl⟩ : ∃ k : Wait, s.ph = k.phase ∧ k.budget s.cfg = .inf ∧ v = k.wrong := by
    obtain ⟨hp, hb, rfl⟩ | ⟨hp, hb, rfl⟩ | ⟨hp, hb, rfl⟩ := hwait
    · exact ⟨.bitLow, hp, hb, rfl⟩
    · exact ⟨.bitHigh, hp, hb, rfl⟩
    · exact ⟨.endWait, hp, hb, rfl⟩
  have hanswers : nextAnswers n s = List.replicate n k.wrong := by
    simpa using nextAnswers_of_script (l := List.replicate n k.wrong) (rest := []) (by simpa using hscript)
  obtain ⟨t, ht⟩ := k.misses n hp hin hquiet (fun v hv => List.eq_of_mem_replicate (hanswers ▸ hv))
    (fun b hb' => by rw [hb] at hb'; cases hb')
  exact ⟨t, ht.run, ht.ph, by rw [ht.spin, if_pos hb], ht.dir.trans hin, ht.nread, ht.tUs⟩

end Sys2Proof.Machine
end

section
/-! Whole cycles (spec/95_test_vectors.md S6, spec/42_bit_sample_detector.md R137 and section 5): the parts of a cycle
put end to end, and the obligations O53 and O54. -/

namespace Sys2Proof.Machine

/-! ### Runs with a quiet port -/

theorem quiet_of_step {s t : State} (hquiet : quiet s = true) (h : step s = .next t) : quiet t = true := by
  have hno := noCommand_of_quiet hquiet
  by_cases hidle : s.ph = .idle
  · cases (step_of_idle hno hidle).symm.trans h
    exact quiet_takePort hquiet
  · obtain ⟨i, hi⟩ := exists_phaseOperation hidle
    exact (quiet_step hquiet ((step_of_phase hno hi).symm.trans h)).1

/-- An idle engine stays idle until a command is presented (R101). -/
theorem steps_of_idle {n : Nat} {s t : State} (hquiet : quiet s = true) (hidle : s.ph = .idle)
    (h : steps n s = .next t) : t.ph = .idle := by
  induction n generalizing s with
  | zero =>
    cases h
    exact hidle
  | succ n ih =>
    have hstep := step_of_idle (noCommand_of_quiet hquiet) hidle
    rw [steps_succ_of_step hstep] at h
    exact ih (quiet_takePort hquiet) hidle h

/-- The call has the run of the engine behind it as long as the engine is busy. -/
theorem runToIdle_of_steps {m : Nat} {s t : State} (hquiet : quiet s = true) (h : steps m s = .next t)
    (hbusy : t.ph ≠ .idle) (n : Nat) : runToIdle (m + n) s = runToIdle n t := by
  induction m generalizing s with
  | zero =>
    cases h
    rw [Nat.zero_add]
  | succ m ih =>
    have hs : s.ph ≠ .idle := fun hidle => hbusy (steps_of_idle hquiet hidle h)
    rw [steps_succ] at h
    obtain ⟨u, hstep, hrun⟩ := andThen_eq_next_iff.1 h
    rw [Nat.add_right_comm, runToIdle_succ hs hstep, ih (quiet_of_step hquiet hstep) hrun]

theorem steps_keep_engineInv {n : Nat} {s t : State} (hs : EngineInv s) (h : steps n s = .next t) : EngineInv t := by
  induction n generalizing s with
  | zero =>
    cases h
    exact hs
  | succ n ih =>
    rw [steps_succ] at h
    obtain ⟨u, hstep, hrun⟩ := andThen_eq_next_iff.1 h
    exact ih (stepKeepsInvariant s u hs hstep) hrun

/-! ### Parts of a cycle -/

/-- From `s`, in `n` steps that made `r` reads and asked for `us` microseconds, a cycle has come to `t`. -/
structure Advance (n r us : Nat) (s t : State) : Prop where
  run : steps n s = .next t
  nread : t.nread = s.nread + r
  tUs : t.tUs = s.tUs + us
  cfg : t.cfg = s.cfg
  quiet : quiet t = true
  inv : EngineInv t

theorem Advance.trans {n r us n' r' us' : Nat} {s t u : State} (h : Advance n r us s t) (h' : Advance n' r' us' t u) :
    Advance (n + n') (r + r') (us + us') s u where
  run := by rw [steps_add h.run, h'.run]
  nread := by rw [h'.nread, h.nread, Nat.add_assoc]
  tUs := by rw [h'.tUs, h.tUs, Nat.add_assoc]
  cfg := h'.cfg.trans h.cfg
  quiet := h'.quiet
  inv := h'.inv

/-- The start pulse (R112). -/
theorem start_advances {s : State} (hs : EngineInv s) (hquiet : quiet s = true) (hp : s.ph = .start) :
    ∃ t, Advance 1 0 1000 s t ∧ t.ph = .ackLow ∧ t.spin = 0 ∧ t.frame = s.frame ∧ t.bitcnt = s.bitcnt ∧
      t.script = s.script ∧
      t.trace = s.trace ++
        [DrvCall.setLevel .low, DrvCall.delayUs 1000, DrvCall.setLevel .high, DrvCall.setDirection .input] := by
  obtain ⟨i, t, hi, hexec, hstep, ht⟩ := step_of_busy hs (noCommand_of_quiet hquiet) (by rw [hp]; decide)
  rw [hp] at hi
  cases hi
  obtain ⟨hquiet', hcfg⟩ := quiet_step hquiet hexec
  obtain ⟨-, hframe, hph, hbitcnt, hspin, -, -, -, -, -, -, -, htrace, htUs, hnread, -, hscript, -⟩ :=
    execStart_cases hexec
  exact ⟨t, ⟨steps_succ_of_step hstep 0, hnread, htUs, hcfg, hquiet', ht⟩, hph, hspin, hframe, hbitcnt, hscript, htrace⟩

/-- The line is the far end's in every wait (R26, R45). -/
theorem Wait.dir_of_engineInv (k : Wait) {s : State} (hs : EngineInv s) (hp : s.ph = k.phase) : s.dir = .input := by
  obtain ⟨-, -, -, -, hphase⟩ := (engineInv_iff s).1 hs
  rw [hp, phaseInv_phase] at hphase
  exact hphase.1

/-- A wait that meets `m` wrong answers within its budget and then its level (R110). -/
theorem Wait.advances (k : Wait) {m : Nat} {s : State} {w v : Level} {rest : List Level} (hs : EngineInv s)
    (hquiet : quiet s = true) (hp : s.ph = k.phase) (hspin : s.spin = 0)
    (hadmits : admitsMisses (k.budget s.cfg) m = true) (hw : w = k.wrong) (hv : v = k.target)
    (hscript : s.script = List.replicate m w ++ v :: rest) :
    ∃ t, Advance (m + 1) (m + 1) m s t ∧ t.ph = k.next ∧ t.spin = 0 ∧ t.frame = s.frame ∧ t.bitcnt = s.bitcnt ∧
      t.script = rest := by
  subst hw hv
  have hin := k.dir_of_engineInv hs hp
  have hanswers : nextAnswers m s = List.replicate m k.wrong := by
    simpa using nextAnswers_of_script hscript
  obtain ⟨t, ht⟩ := k.misses m hp hin hquiet (fun v hv => List.eq_of_mem_replicate (hanswers ▸ hv))
    (k.below_of_admits hspin hadmits)
  have hleft : t.script = k.target :: rest := by
    rw [ht.script, hscript, List.drop_append, List.length_replicate, Nat.sub_self]
    simp
  have hrun := ht.hit hp hin (nextAnswer_of_script_cons hleft)
  refine ⟨_, ⟨hrun, ?_, ?_, ?_, ?_, steps_keep_engineInv hs hrun⟩, ?_, ?_, ?_, ?_, ?_⟩
  · simp [ht.nread, Nat.add_assoc]
  · simp [ht.tUs]
  · simp [ht.cfg]
  · simpa [quiet] using quiet_takePort ht.quiet
  · simp
  · simp
  · simp [ht.frame]
  · simp [ht.bitcnt]
  · simp [hleft]

/-- One sample (R134). -/
theorem bitSample_advances {s : State} {v : Level} {rest : List Level} (hs : EngineInv s) (hquiet : quiet s = true)
    (hp : s.ph = .bitSample) (hscript : s.script = v :: rest) :
    ∃ t, Advance 1 1 35 s t ∧ t.ph = (if t.bitcnt = 40 then .endWait else .bitLow) ∧ t.spin = 0 ∧
      t.frame = shiftFrame s.frame s.bitcnt (levelBit v) ∧ t.bitcnt = s.bitcnt + 1 ∧ t.script = rest := by
  obtain ⟨i, t, hi, hexec, hstep, ht⟩ := step_of_busy hs (noCommand_of_quiet hquiet) (by rw [hp]; decide)
  rw [hp] at hi
  cases hi
  obtain ⟨hquiet', hcfg⟩ := quiet_step hquiet hexec
  obtain ⟨-, -, rfl⟩ := execBitSample_cases hexec
  have hanswer : nextAnswer s = v := nextAnswer_of_script_cons hscript
  refine ⟨_, ⟨steps_succ_of_step hstep 0, ?_, ?_, hcfg, hquiet', ht⟩, ?_, ?_, ?_, ?_, ?_⟩
  · simp
  · simp [sampleUs]
  · simp
  · simp
  · simp [hanswer]
  · simp
  · simp [hscript]

/-- One bit cell: its two waits and its sample (R137). -/
theorem cell_advances (k : BitCell) {s : State} {rest : List Level} (hs : EngineInv s) (hquiet : quiet s = true)
    (hp : s.ph = .bitLow) (hspin : s.spin = 0) (hc : admitsMisses s.cfg.bitBudget k.c = true)
    (hd : admitsMisses s.cfg.bitBudget k.d = true) (hscript : s.script = cellScript k ++ rest) :
    ∃ t, Advance (k.c + k.d + 3) (k.c + k.d + 3) (k.c + k.d + 35) s t ∧
      t.ph = (if t.bitcnt = 40 then .endWait else .bitLow) ∧ t.spin = 0 ∧
      t.frame = shiftFrame s.frame s.bitcnt (levelBit k.sample) ∧ t.bitcnt = s.bitcnt + 1 ∧ t.script = rest := by
  have hscript' : s.script = List.replicate k.c Level.high ++
      Level.low :: (List.replicate k.d Level.low ++ Level.high :: k.sample :: rest) := by
    simp [hscript, cellScript]
  obtain ⟨t, hlow, hp₁, hspin₁, hframe₁, hbits₁, hscript₁⟩ := Wait.bitLow.advances hs hquiet hp hspin hc rfl rfl hscript'
  obtain ⟨u, hhigh, hp₂, -, hframe₂, hbits₂, hscript₂⟩ :=
    Wait.bitHigh.advances hlow.inv hlow.quiet hp₁ hspin₁ (by rw [hlow.cfg]; exact hd) rfl rfl hscript₁
  obtain ⟨v, hsample, hp₃, hspin₃, hframe₃, hbits₃, hscript₃⟩ :=
    bitSample_advances hhigh.inv hhigh.quiet hp₂ hscript₂
  have hall := (hlow.trans hhigh).trans hsample
  refine ⟨v, ?_, hp₃, hspin₃, ?_, ?_, hscript₃⟩
  · convert hall using 1 <;> omega
  · rw [hframe₃, hframe₂, hframe₁, hbits₂, hbits₁]
  · rw [hbits₃, hbits₂, hbits₁]

/-- The misses and the samples of a run of cells are those of the first and of the others. -/
theorem cellMisses_cons (k : BitCell) (cells : List BitCell) :
    cellMisses (k :: cells) = k.c + k.d + cellMisses cells := by
  simp [cellMisses]

/-- The bit cells up to the 40th bit, one after the other. -/
theorem cells_advance (cells : List BitCell) {s : State} {rest : List Level} (hs : EngineInv s)
    (hquiet : quiet s = true) (hp : s.ph = if s.bitcnt = 40 then .endWait else .bitLow) (hspin : s.spin = 0)
    (hcount : s.bitcnt + cells.length = 40)
    (hadmits : ∀ k ∈ cells, admitsMisses s.cfg.bitBudget k.c = true ∧ admitsMisses s.cfg.bitBudget k.d = true)
    (hscript : s.script = (cells.map cellScript).flatten ++ rest) :
    ∃ t, Advance (cellMisses cells + 3 * cells.length) (cellMisses cells + 3 * cells.length)
        (cellMisses cells + 35 * cells.length) s t ∧ t.ph = .endWait ∧ t.spin = 0 ∧
      t.frame = shiftBits s.frame s.bitcnt (cells.map fun k => levelBit k.sample) ∧ t.script = rest := by
  induction cells generalizing s with
  | nil =>
    rw [if_pos (show s.bitcnt = 40 from hcount)] at hp
    exact ⟨s, ⟨rfl, rfl, rfl, rfl, hquiet, hs⟩, hp, hspin, rfl, hscript⟩
  | cons k cells ih =>
    rw [List.length_cons] at hcount
    rw [if_neg (by omega)] at hp
    obtain ⟨hfirst, hlater⟩ := List.forall_mem_cons.1 hadmits
    rw [List.map_cons, List.flatten_cons, List.append_assoc] at hscript
    obtain ⟨t, hcell, hp₁, hspin₁, hframe₁, hbits₁, hscript₁⟩ :=
      cell_advances k hs hquiet hp hspin hfirst.1 hfirst.2 hscript
    obtain ⟨u, hcells, hp₂, hspin₂, hframe₂, hscript₂⟩ :=
      ih hcell.inv hcell.quiet hp₁ hspin₁ (by omega) (hcell.cfg ▸ hlater) hscript₁
    refine ⟨u, ?_, hp₂, hspin₂, ?_, hscript₂⟩
    · convert hcell.trans hcells using 1 <;> rw [cellMisses_cons, List.length_cons] <;> omega
    · rw [hframe₂, hframe₁, hbits₁]
      rfl

/-- The last two steps of a cycle that received a whole frame: the check, and the decode of a valid one. -/
theorem validate_delivers {s : State} (hs : EngineInv s) (hquiet : quiet s = true) (hp : s.ph = .validate) :
    ∃ t, runToIdle 2 s = .next t ∧ t.ph = .idle ∧ result t = some (outcomeOfFrame s.frame) ∧ EngineInv t ∧
      t.script = s.script ∧ t.nread = s.nread ∧ t.tUs = s.tUs := by
  have hno := noCommand_of_quiet hquiet
  have hcheck : step s = execValidate (takePort s) := step_of_phase (i := .validate) hno (by rw [hp]; rfl)
  have hbusy : s.ph ≠ .idle := by rw [hp]; decide
  cases hvalid : frameValid s.frame with
  | true =>
    have hstep : step s = .next { takePort s with ph := .decode } :=
      hcheck.trans (execValidate_of_valid (s := takePort s) hvalid)
    have hdecode : step { takePort s with ph := .decode } =
        exec .decodeReading (takePort { takePort s with ph := .decode }) :=
      step_of_phase (noCommand_of_quiet (quiet_of_step hquiet hstep)) rfl
    rw [exec_decodeReading] at hdecode
    refine ⟨_, (runToIdle_succ hbusy hstep).trans (runToIdle_succ nofun hdecode), rfl, ?_, ?_, rfl, rfl, rfl⟩
    · rw [outcomeOfFrame, if_pos hvalid]
      rfl
    · exact stepKeepsInvariant _ _ (stepKeepsInvariant _ _ hs hstep) hdecode
  | false =>
    have hstep : step s = .next (toIdle { takePort s with tag := .checksumMismatch }) :=
      hcheck.trans (execValidate_of_invalid (s := takePort s) hvalid)
    refine ⟨_, (runToIdle_succ hbusy hstep).trans (runToIdle_of_idle _ rfl), rfl, ?_,
      stepKeepsInvariant _ _ hs hstep, rfl, rfl, rfl⟩
    rw [outcomeOfFrame, if_neg (by rw [hvalid]; decide)]
    rfl

/-- The invariant in `IDLE`. -/
theorem lineIdle_of_engineInv {s : State} (hs : EngineInv s) (hidle : s.ph = .idle) : LineIdle s ∧ CleanScratch s := by
  obtain ⟨-, -, hout, -, hphase⟩ := (engineInv_iff s).1 hs
  rw [hidle] at hphase
  exact ⟨⟨hphase.1, hout⟩, hphase.2⟩

/-! ### The obligations -/

/-- Settles O53: the pulse, the wait that uses up its budget, and the report. -/
theorem ackTimeoutProperty : Obligations.AckTimeoutProperty := by
  unfold Obligations.AckTimeoutProperty
  intro s rest hlaunch hquiet hscript
  have hinv := engineInv_launched hlaunch hquiet
  obtain ⟨t, hstart, hp, hspin, -, -, hscript₁, htrace⟩ := start_advances hinv hquiet rfl
  have ⟨_, _, _, hack, _⟩ := hlaunch
  obtain ⟨m, hm⟩ := Nat.exists_eq_add_one_of_ne_zero (Nat.ne_of_gt hack)
  rw [hm] at hscript ⊢
  have hscript₂ : t.script = List.replicate (m + 1) .high ++ rest := hscript₁.trans hscript
  have hanswers : nextAnswers (m + 1) t = List.replicate (m + 1) .high := by
    simpa using nextAnswers_of_script hscript₂
  have hbudget : Wait.ackLow.budget t.cfg = .finite (m + 1) := by
    rw [hstart.cfg, ← hm]
    rfl
  obtain ⟨u, hu⟩ := Wait.ackLow.timesOut hp (Wait.ackLow.dir_of_engineInv hstart.inv hp) hstart.quiet hspin hbudget
    fun v hv => List.eq_of_mem_replicate (hanswers ▸ hv)
  have hrun : steps (1 + (m + 1)) (launched s) = .next u := by rw [steps_add hstart.run, hu.run]
  have hreport : step u = exec .recover (takePort u) :=
    step_of_phase (noCommand_of_quiet hu.quiet) (by rw [hu.ph]; rfl)
  rw [recoverResult (takePort u)] at hreport
  have hend := stepKeepsInvariant _ _ (steps_keep_engineInv hinv hrun) hreport
  have hbusy : u.ph ≠ .idle := by rw [hu.ph]; decide
  have hcall : acquireCall (m + 1 + 2) s = runToIdle 1 u := by
    have hfuel : m + 1 + 2 = 1 + (m + 1) + 1 := by omega
    rw [acquireCall_eq _ hlaunch, hfuel, runToIdle_of_steps (s := launched s) hquiet hrun hbusy]
  refine ⟨_, hcall.trans (runToIdle_succ hbusy hreport), rfl, ?_, ⟨rfl, rfl⟩, ?_, ?_, ?_, ?_, ?_⟩
  · simp [result, hu.cause, Wait.cause]
  · obtain ⟨-, -, -, hreading, -⟩ := (engineInv_iff _).1 hend
    exact hreading (by simp [hu.cause, Wait.cause])
  · simp [hu.script, hscript₂]
  · simp [hu.nread, hstart.nread]
  · simp [hu.tUs, hstart.tUs]
  · simp [hu.trace, htrace, Wait.wrong]

/-- Settles O54: the pulse, the waits and the cells put end to end, then the check of the frame received. -/
theorem cycleDeliversFrame : Obligations.CycleDeliversFrame := by
  unfold Obligations.CycleDeliversFrame
  intro s a b e cells rest hlaunch hquiet hcells ha hb he hadmits hscript
  have hinv := engineInv_launched hlaunch hquiet
  have hcell : ∀ k ∈ cells, admitsMisses s.cfg.bitBudget k.c = true ∧ admitsMisses s.cfg.bitBudget k.d = true := by
    simpa using hadmits
  have hscript' : (launched s).script = List.replicate a Level.high ++ Level.low ::
      (List.replicate b Level.low ++ Level.high ::
        ((cells.map cellScript).flatten ++ (List.replicate e Level.high ++ Level.low :: rest))) := by
    simp [hscript, cycleScript]
  obtain ⟨s₁, h₁, hp₁, hspin₁, hframe₁, hbits₁, hscript₁, -⟩ := start_advances hinv hquiet rfl
  obtain ⟨s₂, h₂, hp₂, hspin₂, hframe₂, hbits₂, hscript₂⟩ := Wait.ackLow.advances h₁.inv h₁.quiet hp₁ hspin₁
    (m := a) (by rw [h₁.cfg]; exact decide_eq_true ha) rfl rfl (hscript₁.trans hscript')
  have hcfg₂ := (h₁.trans h₂).cfg
  obtain ⟨s₃, h₃, hp₃, hspin₃, hframe₃, hbits₃, hscript₃⟩ := Wait.ackHigh.advances h₂.inv h₂.quiet hp₂ hspin₂
    (m := b) (by rw [hcfg₂]; exact decide_eq_true hb) rfl rfl hscript₂
  have hcfg₃ := ((h₁.trans h₂).trans h₃).cfg
  have hzero : s₃.bitcnt = 0 := by rw [hbits₃, hbits₂, hbits₁]; rfl
  obtain ⟨s₄, h₄, hp₄, hspin₄, hframe₄, hscript₄⟩ := cells_advance cells h₃.inv h₃.quiet
    (by rw [hzero, hp₃]; rfl) hspin₃ (by rw [hzero, hcells]) (by rw [hcfg₃]; exact hcell) hscript₃
  have hcfg₄ := (((h₁.trans h₂).trans h₃).trans h₄).cfg
  obtain ⟨s₅, h₅, hp₅, -, hframe₅, -, hscript₅⟩ := Wait.endWait.advances h₄.inv h₄.quiet hp₄ hspin₄
    (m := e) (by rw [hcfg₄]; exact he) rfl rfl hscript₄
  have hall := (((h₁.trans h₂).trans h₃).trans h₄).trans h₅
  have hframe : s₅.frame = frameOfCells cells := by
    rw [hframe₅, hframe₄, hzero, hframe₃, hframe₂, hframe₁]
    rfl
  obtain ⟨t, hrun, hidle, hresult, ht, hscript₆, hnread, htUs⟩ := validate_delivers h₅.inv h₅.quiet hp₅
  obtain ⟨hline, hclean⟩ := lineIdle_of_engineInv ht hidle
  refine ⟨t, ?_, hidle, by rw [← hframe]; exact hresult, hline, hclean, hscript₆.trans hscript₅, ?_, ?_⟩
  · have hfuel : 126 + a + b + cellMisses cells + e =
        1 + (a + 1) + (b + 1) + (cellMisses cells + 3 * cells.length) + (e + 1) + 2 := by omega
    have hbusy : s₅.ph ≠ .idle := by rw [hp₅]; decide
    rw [acquireCall_eq _ hlaunch, hfuel, runToIdle_of_steps (s := launched s) hquiet hall.run hbusy, hrun]
  · rw [hnread, hall.nread, hcells]
    simp only [launched_fields]
    omega
  · rw [htUs, hall.tUs, hcells]
    simp only [launched_fields]
    omega

end Sys2Proof.Machine
end

section
/-! Idempotence (spec/10_state.md R29, section 7, spec/95_test_vectors.md S7): the engine never reads its history, so
launches that differ in nothing else run alike, and the obligation O59. -/

namespace Sys2Proof.Machine

/-! ### The operations do not read the history -/

/-- Whether what an update writes outside the history is read outside the history. -/
def HistoryBlind (f : State → State) : Prop := ∀ s, eraseGhosts (f (eraseGhosts s)) = eraseGhosts (f s)

theorem HistoryBlind.comp {f g : State → State} (hf : HistoryBlind f) (hg : HistoryBlind g) : HistoryBlind (f ∘ g) := by
  intro s
  calc eraseGhosts (f (g (eraseGhosts s)))
      = eraseGhosts (f (eraseGhosts (g (eraseGhosts s)))) := (hf _).symm
    _ = eraseGhosts (f (eraseGhosts (g s))) := by rw [hg s]
    _ = eraseGhosts (f (g s)) := hf _

theorem historyBlind_afterRead : HistoryBlind afterRead := by
  intro s
  cases h : s.script <;> simp [eraseGhosts, afterRead, dropAnswer, record, h]

theorem historyBlind_delayUs (n : Nat) : HistoryBlind (delayUs n) := fun _ => rfl

theorem historyBlind_finish (k : Wait) : HistoryBlind k.finish := by
  intro s
  cases k <;> rfl

theorem historyBlind_countMiss (b : Budget) (c : Tag) : HistoryBlind (countMiss b c) := by
  intro s
  cases b with
  | inf => rfl
  | finite n =>
    by_cases hlast : s.spin + 1 = n
    · rw [countMiss_last c hlast, countMiss_last (s := eraseGhosts s) c hlast]
      rfl
    · rw [countMiss_below c hlast, countMiss_below (s := eraseGhosts s) c hlast]
      rfl

theorem historyBlind_sample (p : Phase) (bit : BitVec 1) : HistoryBlind fun s => leaveWait p (shiftIn bit s) :=
  fun _ => rfl

theorem eraseOutcome_next_congr {s t : State} (h : eraseGhosts s = eraseGhosts t) :
    eraseOutcome (.next s) = eraseOutcome (.next t) :=
  congrArg Host.Outcome.next h

theorem Wait.exec_eraseGhosts (k : Wait) (s : State) :
    eraseOutcome (exec k.op (eraseGhosts s)) = eraseOutcome (exec k.op s) := by
  cases hdir : s.dir with
  | output => rw [k.exec_op_of_output hdir, k.exec_op_of_output (s := eraseGhosts s) hdir]
  | input =>
    by_cases hans : nextAnswer s = k.target
    · have hblind := (historyBlind_finish k).comp historyBlind_afterRead
      rw [k.exec_op_hit hdir hans, k.exec_op_hit (s := eraseGhosts s) hdir hans]
      exact eraseOutcome_next_congr (hblind s)
    · have hblind := (historyBlind_countMiss (k.budget s.cfg) k.cause).comp
        ((historyBlind_delayUs pollUs).comp historyBlind_afterRead)
      rw [k.exec_op_miss hdir hans, k.exec_op_miss (s := eraseGhosts s) hdir hans]
      exact eraseOutcome_next_congr (hblind s)

/-- Above 39 bits `BITSAMPLE` faults in either state, with the same reason. -/
theorem execBitSample_of_full {s : State} (hin : s.dir = .input) (hfull : ¬ s.bitcnt < 40) :
    execBitSample s = .fault .frameOverrun := by
  have hdelayed : (delayUs sampleUs s).dir = .input := by simp [hin]
  rw [execBitSample, getLevel_of_input hdelayed, andThen_next]
  simp [takeSample, nbitsFrame, hfull]

theorem bitSample_eraseGhosts (s : State) :
    eraseOutcome (exec .bitSample (eraseGhosts s)) = eraseOutcome (exec .bitSample s) := by
  rw [exec_bitSample, exec_bitSample]
  cases hdir : s.dir with
  | output => rw [execBitSample_of_output hdir, execBitSample_of_output (s := eraseGhosts s) hdir]
  | input =>
    by_cases hroom : s.bitcnt < 40
    · have hread := historyBlind_afterRead.comp (historyBlind_delayUs sampleUs)
      have hblind := (historyBlind_sample (if s.bitcnt + 1 = 40 then .endWait else .bitLow)
        (levelBit (nextAnswer s))).comp hread
      rw [execBitSample_of_input hdir hroom, execBitSample_of_input (s := eraseGhosts s) hdir hroom]
      exact eraseOutcome_next_congr (hblind s)
    · rw [execBitSample_of_full hdir hroom, execBitSample_of_full (s := eraseGhosts s) hdir hroom]

/-- What an operation does outside the history does not depend on the history. -/
theorem exec_eraseGhosts (i : Instr) (s : State) :
    eraseOutcome (exec i (eraseGhosts s)) = eraseOutcome (exec i s) := by
  cases i using instr_cases with
  | wait k => exact k.exec_eraseGhosts s
  | acquire =>
    rw [exec_acquire, exec_acquire]
    by_cases hidle : s.ph = .idle
    · rw [execAcquire_of_idle hidle, execAcquire_of_idle (s := eraseGhosts s) hidle]
      rfl
    · rw [execAcquire_of_busy hidle, execAcquire_of_busy (s := eraseGhosts s) hidle]
  | abort =>
    rw [exec_abort, exec_abort]
    by_cases hidle : s.ph = .idle
    · rw [execAbort_of_idle hidle, execAbort_of_idle (s := eraseGhosts s) hidle]
      rfl
    · rw [execAbort_of_busy hidle, execAbort_of_busy (s := eraseGhosts s) hidle]
      rfl
  | start =>
    rw [exec_start, exec_start]
    cases hdir : s.dir with
    | output =>
      rw [execStart_of_output hdir, execStart_of_output (s := eraseGhosts s) hdir]
      rfl
    | input => rw [execStart_of_input hdir, execStart_of_input (s := eraseGhosts s) hdir]
  | bitSample => exact bitSample_eraseGhosts s
  | validate =>
    rw [exec_validate, exec_validate]
    cases hvalid : frameValid s.frame with
    | true =>
      rw [execValidate_of_valid hvalid, execValidate_of_valid (s := eraseGhosts s) hvalid]
      rfl
    | false =>
      rw [execValidate_of_invalid hvalid, execValidate_of_invalid (s := eraseGhosts s) hvalid]
      rfl
  | recover =>
    rw [exec_recover, exec_recover, reportFailure_eq, reportFailure_eq]
    rfl
  | decodeReading | setDirection d | delayUs n => rfl
  | setLevel v =>
    rw [exec_setLevel, exec_setLevel]
    cases hdir : s.dir with
    | output =>
      rw [setLevel_of_output v hdir, setLevel_of_output (s := eraseGhosts s) v hdir]
      rfl
    | input => rw [setLevel_of_input v hdir, setLevel_of_input (s := eraseGhosts s) v hdir]
  | getLevel =>
    cases hdir : s.dir with
    | output => rw [exec_getLevel_of_output hdir, exec_getLevel_of_output (s := eraseGhosts s) hdir]
    | input =>
      rw [exec_getLevel_of_input hdir, exec_getLevel_of_input (s := eraseGhosts s) hdir]
      exact eraseOutcome_next_congr (historyBlind_afterRead s)

/-! ### Steps and runs -/

theorem runWord_eraseGhosts (w : CodeWord) (s : State) :
    eraseOutcome (runWord w (eraseGhosts s)) = eraseOutcome (runWord w s) := by
  rw [runWord, runWord]
  cases decode w with
  | ok i => exact exec_eraseGhosts i s
  | error e => cases e <;> rfl

theorem step_eraseGhosts (s : State) : eraseOutcome (step (eraseGhosts s)) = eraseOutcome (step s) := by
  rcases port_cases s with hno | ⟨c, rest, hport, hc⟩ | ⟨w, rest, hport⟩ | ⟨rest, hport⟩
  · rw [step_of_fetch (fetch_of_noCommandPresented hno),
      step_of_fetch (fetch_of_noCommandPresented (s := eraseGhosts s) hno)]
    exact runWord_eraseGhosts _ (takePort s)
  · rw [step_of_fetch (fetch_of_host hport hc), step_of_fetch (fetch_of_host (s := eraseGhosts s) hport hc)]
    exact runWord_eraseGhosts _ (takePort s)
  · rw [step_of_fetch (fetch_of_drv hport), step_of_fetch (fetch_of_drv (s := eraseGhosts s) hport)]
    exact runWord_eraseGhosts _ (takePort s)
  · rw [step_of_reset hport, step_of_reset (s := eraseGhosts s) hport]
    rfl

/-- States that differ in their history alone have steps that do. -/
theorem step_congr {s t : State} (h : eraseGhosts s = eraseGhosts t) :
    eraseOutcome (step s) = eraseOutcome (step t) := by
  rw [← step_eraseGhosts s, h, step_eraseGhosts]

/-- A sequence whose parts do not read the history does not read it. -/
theorem andThen_congr {o o' : Host.Outcome State Fault Refusal} {k : State → Host.Outcome State Fault Refusal}
    (ho : eraseOutcome o = eraseOutcome o')
    (hk : ∀ s t, eraseGhosts s = eraseGhosts t → eraseOutcome (k s) = eraseOutcome (k t)) :
    eraseOutcome (andThen o k) = eraseOutcome (andThen o' k) := by
  cases o with
  | next s =>
    cases o' with
    | next t => exact hk s t (Host.Outcome.next.inj ho)
    | fault f | refused r => cases ho
  | fault f =>
    cases o' with
    | fault g => exact ho
    | next t | refused r => cases ho
  | refused r =>
    cases o' with
    | refused q => exact ho
    | next t | fault f => cases ho

theorem steps_congr (n : Nat) {s t : State} (h : eraseGhosts s = eraseGhosts t) :
    eraseOutcome (steps n s) = eraseOutcome (steps n t) := by
  induction n generalizing s t with
  | zero => exact eraseOutcome_next_congr h
  | succ n ih =>
    rw [steps_succ, steps_succ]
    exact andThen_congr (step_congr h) fun _ _ => ih

/-! ### The calls of a step with no command presented -/

/-- The calls that the operation of the phase makes. -/
def phaseCalls (s : State) : List DrvCall :=
  match phaseOperation s.ph with
  | none => []
  | some i => madeCalls i s

theorem phaseCalls_eraseGhosts (s : State) : phaseCalls (eraseGhosts s) = phaseCalls s := by
  unfold phaseCalls
  have hph : (eraseGhosts s).ph = s.ph := rfl
  rw [hph]
  cases s.ph <;> rfl

theorem step_trace {s t : State} (hquiet : quiet s = true) (h : step s = .next t) :
    t.trace = s.trace ++ phaseCalls (takePort s) := by
  have hno := noCommand_of_quiet hquiet
  by_cases hidle : s.ph = .idle
  · cases (step_of_idle hno hidle).symm.trans h
    simp [phaseCalls, hidle, phaseOperation]
  · obtain ⟨i, hi⟩ := exists_phaseOperation hidle
    have hafter := exec_after ((step_of_phase hno hi).symm.trans h)
    simpa [phaseCalls, hi] using hafter.trace

/-- Runs from states that differ in their history alone append the same calls. -/
theorem steps_same_calls (n : Nat) {s t u v : State} (h : eraseGhosts s = eraseGhosts t) (hquiet : quiet s = true)
    (hs : steps n s = .next u) (ht : steps n t = .next v) :
    ∃ calls, u.trace = s.trace ++ calls ∧ v.trace = t.trace ++ calls := by
  induction n generalizing s t with
  | zero =>
    cases hs
    cases ht
    exact ⟨[], by simp, by simp⟩
  | succ n ih =>
    rw [steps_succ] at hs ht
    obtain ⟨s', hstep, hs⟩ := andThen_eq_next_iff.1 hs
    obtain ⟨t', htstep, ht⟩ := andThen_eq_next_iff.1 ht
    have hquiet' : quiet t = true := by
      have hport : t.port = s.port := (congrArg State.port h).symm
      rw [quiet, hport]
      exact hquiet
    have hnext : eraseGhosts s' = eraseGhosts t' := by
      have hcongr := step_congr h
      rw [hstep, htstep] at hcongr
      exact Host.Outcome.next.inj hcongr
    have hcalls : phaseCalls (takePort t) = phaseCalls (takePort s) := by
      have htaken : eraseGhosts (takePort t) = eraseGhosts (takePort s) := congrArg takePort h.symm
      rw [← phaseCalls_eraseGhosts, htaken, phaseCalls_eraseGhosts]
    obtain ⟨calls, hu, hv⟩ := ih hnext (quiet_of_step hquiet hstep) hs ht
    refine ⟨phaseCalls (takePort s) ++ calls, ?_, ?_⟩
    · rw [hu, step_trace hquiet hstep, List.append_assoc]
    · rw [hv, step_trace hquiet' htstep, hcalls, List.append_assoc]

/-! ### The obligation -/

/-- After a launch nothing is left of the outcome and the scratch that stood before; the line is idle by R236. -/
theorem eraseGhosts_launched {s : State} (h : Launch s) :
    eraseGhosts (launched s) =
      { State.reset with ph := .start, cfg := s.cfg, script := s.script, oracle := s.oracle, port := s.port } := by
  obtain ⟨-, -, ⟨hdir, hout⟩, -⟩ := h
  simp [eraseGhosts, launched, clearScratch, clearOutcome, State.reset, hdir, hout]

/-- Settles O59: the launched states differ in their history alone, and so do the runs from them. -/
theorem cycleIdempotent : Obligations.CycleIdempotent := by
  unfold Obligations.CycleIdempotent
  intro s₁ s₂ t₁ t₂ k h₁ h₂ hcfg hscript horacle hport ht₁ ht₂
  cases (execAcquire_of_idle h₁.1).symm.trans ht₁
  cases (execAcquire_of_idle h₂.1).symm.trans ht₂
  have hsame : eraseGhosts (launched s₁) = eraseGhosts (launched s₂) := by
    rw [eraseGhosts_launched h₁, eraseGhosts_launched h₂, hcfg, hscript, horacle, hport]
  refine ⟨steps_congr k hsame, fun hquiet u₁ u₂ hu₁ hu₂ => ?_⟩
  exact steps_same_calls (s := launched s₁) (t := launched s₂) k hsame hquiet hu₁ hu₂

end Sys2Proof.Machine
end
